-- ==== Sys2Proof/Word.lean ====
section
/-! DEFINITION. The word types of the hardware (spec 00_scope.md R5) and nothing else. -/

namespace Sys2Proof

/-- A general register, a timer, a memory byte, a key code or a sprite byte (R5: XLEN, TIMER_BITS, KEY_BITS). -/
abbrev Byte := BitVec 8

/-- An opcode, or the program counter (R5: ILEN, PC_BITS). -/
abbrev Word := BitVec 16

/-- A memory address as `I`, a stack slot or an `nnn` field holds it (R5: ADDR_BITS, I_BITS, SLOT_BITS). -/
abbrev Addr := BitVec 12

/-- A register index, an `x` or `y` field (R62). -/
abbrev RegIdx := BitVec 4

/-- The index of `VF`, the register that is also the flag output (R10). -/
abbrev vf : RegIdx := 0xF#4

/-- One packed display row: column `c` is bit `127 - c` (R80). -/
abbrev Row := BitVec 128

end Sys2Proof
end

