-- ==== Sys2Proof/Syntax.lean ====
section
/-! DEFINITION. The instruction set: one constructor for each of the 41 rows of spec/opcode_table.json, in the
table's order (spec 30_encoding.md R65). The fields are those of R62: `x`, `y` register indices, `n` a 4-bit
immediate, `kk` an 8-bit immediate, `nnn` a 12-bit address. -/

namespace Sys2Proof

inductive Instr where
  /-- `00Cn` SCD n (R100) -/
  | scd (n : BitVec 4)
  /-- `00E0` CLS (R101) -/
  | cls
  /-- `00EE` RET (R102) -/
  | ret
  /-- `00FB` SCR (R103) -/
  | scr
  /-- `00FC` SCL (R104) -/
  | scl
  /-- `00FD` EXIT (R105) -/
  | exit
  /-- `00FE` LOW (R106) -/
  | low
  /-- `00FF` HIGH (R107) -/
  | high
  /-- `1nnn` JP nnn (R110) -/
  | jp (nnn : Addr)
  /-- `2nnn` CALL nnn (R111) -/
  | call (nnn : Addr)
  /-- `3xkk` SE Vx, kk (R112) -/
  | seImm (x : RegIdx) (kk : Byte)
  /-- `4xkk` SNE Vx, kk (R113) -/
  | sneImm (x : RegIdx) (kk : Byte)
  /-- `5xy0` SE Vx, Vy (R114) -/
  | seReg (x y : RegIdx)
  /-- `6xkk` LD Vx, kk (R120) -/
  | ldImm (x : RegIdx) (kk : Byte)
  /-- `7xkk` ADD Vx, kk (R121) -/
  | addImm (x : RegIdx) (kk : Byte)
  /-- `8xy0` LD Vx, Vy (R122) -/
  | ldReg (x y : RegIdx)
  /-- `8xy1` OR Vx, Vy (R123) -/
  | orReg (x y : RegIdx)
  /-- `8xy2` AND Vx, Vy (R124) -/
  | andReg (x y : RegIdx)
  /-- `8xy3` XOR Vx, Vy (R125) -/
  | xorReg (x y : RegIdx)
  /-- `8xy4` ADD Vx, Vy (R126) -/
  | addReg (x y : RegIdx)
  /-- `8xy5` SUB Vx, Vy (R127) -/
  | subReg (x y : RegIdx)
  /-- `8xy6` SHR Vx, Vy (R128) -/
  | shrReg (x y : RegIdx)
  /-- `8xy7` SUBN Vx, Vy (R129) -/
  | subnReg (x y : RegIdx)
  /-- `8xyE` SHL Vx, Vy (R130) -/
  | shlReg (x y : RegIdx)
  /-- `9xy0` SNE Vx, Vy (R115) -/
  | sneReg (x y : RegIdx)
  /-- `Annn` LD I, nnn (R160) -/
  | ldI (nnn : Addr)
  /-- `Bnnn` JP V0, nnn (R116) -/
  | jpV0 (nnn : Addr)
  /-- `Cxkk` RND Vx, kk (R150) -/
  | rnd (x : RegIdx) (kk : Byte)
  /-- `Dxyn` DRW Vx, Vy, n (R140) -/
  | drw (x y : RegIdx) (n : BitVec 4)
  /-- `Ex9E` SKP Vx (R151) -/
  | skp (x : RegIdx)
  /-- `ExA1` SKNP Vx (R152) -/
  | sknp (x : RegIdx)
  /-- `Fx07` LD Vx, DT (R153) -/
  | ldVxDt (x : RegIdx)
  /-- `Fx0A` LD Vx, K (R154) -/
  | ldVxK (x : RegIdx)
  /-- `Fx15` LD DT, Vx (R155) -/
  | ldDtVx (x : RegIdx)
  /-- `Fx18` LD ST, Vx (R156) -/
  | ldStVx (x : RegIdx)
  /-- `Fx1E` ADD I, Vx (R161) -/
  | addI (x : RegIdx)
  /-- `Fx29` LD F, Vx (R162) -/
  | ldF (x : RegIdx)
  /-- `Fx30` LD HF, Vx (R163) -/
  | ldHf (x : RegIdx)
  /-- `Fx33` LD B, Vx (R164) -/
  | ldB (x : RegIdx)
  /-- `Fx55` LD [I], Vx (R165) -/
  | stBlock (x : RegIdx)
  /-- `Fx65` LD Vx, [I] (R166) -/
  | ldBlock (x : RegIdx)
  deriving DecidableEq, Repr

end Sys2Proof
end

