-- ==== Sys2Proof/WellFormed.lean ====
section
/-! DEFINITION. The opcode map of spec 30_encoding.md R65 as data, the check of an opcode word against it (a word
that fails it is a reserved encoding, R66), and the check of an instruction. -/

namespace Sys2Proof

/-- One row of the opcode map of R65: its number, its mask and its match. -/
structure OpcodeRow where
  num   : Nat
  mask  : Word
  value : Word
  deriving DecidableEq, Repr

/-- R65: "An opcode selects an instruction exactly when `opcode AND mask = match`." -/
def OpcodeRow.selects (r : OpcodeRow) (op : Word) : Bool := op &&& r.mask == r.value

/-- Rows 1 to 8: family 0. -/
def opcodeRows0 : List OpcodeRow :=
  [⟨1, 0xFFF0#16, 0x00C0#16⟩, ⟨2, 0xFFFF#16, 0x00E0#16⟩, ⟨3, 0xFFFF#16, 0x00EE#16⟩, ⟨4, 0xFFFF#16, 0x00FB#16⟩,
   ⟨5, 0xFFFF#16, 0x00FC#16⟩, ⟨6, 0xFFFF#16, 0x00FD#16⟩, ⟨7, 0xFFFF#16, 0x00FE#16⟩, ⟨8, 0xFFFF#16, 0x00FF#16⟩]

/-- Rows 9 to 15: families 1 to 7. -/
def opcodeRows1 : List OpcodeRow :=
  [⟨9, 0xF000#16, 0x1000#16⟩, ⟨10, 0xF000#16, 0x2000#16⟩, ⟨11, 0xF000#16, 0x3000#16⟩, ⟨12, 0xF000#16, 0x4000#16⟩,
   ⟨13, 0xF00F#16, 0x5000#16⟩, ⟨14, 0xF000#16, 0x6000#16⟩, ⟨15, 0xF000#16, 0x7000#16⟩]

/-- Rows 16 to 24: family 8. -/
def opcodeRows8 : List OpcodeRow :=
  [⟨16, 0xF00F#16, 0x8000#16⟩, ⟨17, 0xF00F#16, 0x8001#16⟩, ⟨18, 0xF00F#16, 0x8002#16⟩, ⟨19, 0xF00F#16, 0x8003#16⟩,
   ⟨20, 0xF00F#16, 0x8004#16⟩, ⟨21, 0xF00F#16, 0x8005#16⟩, ⟨22, 0xF00F#16, 0x8006#16⟩, ⟨23, 0xF00F#16, 0x8007#16⟩,
   ⟨24, 0xF00F#16, 0x800E#16⟩]

/-- Rows 25 to 31: families 9 to E. -/
def opcodeRows9 : List OpcodeRow :=
  [⟨25, 0xF00F#16, 0x9000#16⟩, ⟨26, 0xF000#16, 0xA000#16⟩, ⟨27, 0xF000#16, 0xB000#16⟩, ⟨28, 0xF000#16, 0xC000#16⟩,
   ⟨29, 0xF000#16, 0xD000#16⟩, ⟨30, 0xF0FF#16, 0xE09E#16⟩, ⟨31, 0xF0FF#16, 0xE0A1#16⟩]

/-- Rows 32 to 41: family F. -/
def opcodeRowsF : List OpcodeRow :=
  [⟨32, 0xF0FF#16, 0xF007#16⟩, ⟨33, 0xF0FF#16, 0xF00A#16⟩, ⟨34, 0xF0FF#16, 0xF015#16⟩, ⟨35, 0xF0FF#16, 0xF018#16⟩,
   ⟨36, 0xF0FF#16, 0xF01E#16⟩, ⟨37, 0xF0FF#16, 0xF029#16⟩, ⟨38, 0xF0FF#16, 0xF030#16⟩, ⟨39, 0xF0FF#16, 0xF033#16⟩,
   ⟨40, 0xF0FF#16, 0xF055#16⟩, ⟨41, 0xF0FF#16, 0xF065#16⟩]

/-- The whole map of R65: "these 41 rows are every instruction the hardware has". -/
def opcodeTable : List OpcodeRow :=
  opcodeRows0 ++ opcodeRows1 ++ opcodeRows8 ++ opcodeRows9 ++ opcodeRowsF

/-- The row of R65 each instruction is. -/
def Instr.row : Instr → Nat
  | .scd _ => 1 | .cls => 2 | .ret => 3 | .scr => 4 | .scl => 5 | .exit => 6 | .low => 7 | .high => 8
  | .jp _ => 9 | .call _ => 10 | .seImm _ _ => 11 | .sneImm _ _ => 12 | .seReg _ _ => 13
  | .ldImm _ _ => 14 | .addImm _ _ => 15 | .ldReg _ _ => 16 | .orReg _ _ => 17 | .andReg _ _ => 18
  | .xorReg _ _ => 19 | .addReg _ _ => 20 | .subReg _ _ => 21 | .shrReg _ _ => 22 | .subnReg _ _ => 23
  | .shlReg _ _ => 24 | .sneReg _ _ => 25 | .ldI _ => 26 | .jpV0 _ => 27 | .rnd _ _ => 28
  | .drw _ _ _ => 29 | .skp _ => 30 | .sknp _ => 31 | .ldVxDt _ => 32 | .ldVxK _ => 33 | .ldDtVx _ => 34
  | .ldStVx _ => 35 | .addI _ => 36 | .ldF _ => 37 | .ldHf _ => 38 | .ldB _ => 39 | .stBlock _ => 40
  | .ldBlock _ => 41

/-- A word is well formed when some row of R65 selects it; every other word is a reserved encoding (R66). -/
def wordWf (op : Word) : Bool := opcodeTable.any (·.selects op)

/-- An instruction is well formed when it is a row of the map. R63 and R64 put no further condition on a field:
every value a field's width admits is legal, and the widths are in the types, so every term passes. -/
def Instr.wf (i : Instr) : Bool := opcodeTable.any (·.num == i.row)

end Sys2Proof
end

