-- ==== Sys2Proof/Decode.lean ====
section
/-! DEFINITION. Decoding (spec 30_encoding.md R62, R65 to R67) and the encoder written from the formats of R63. -/

namespace Sys2Proof

/-- `fam`, bits 15:12 (R62). -/
def famField (op : Word) : BitVec 4 := op.extractLsb' 12 4
/-- `x`, bits 11:8 (R62). -/
def xField (op : Word) : RegIdx := op.extractLsb' 8 4
/-- `y`, bits 7:4 (R62). -/
def yField (op : Word) : RegIdx := op.extractLsb' 4 4
/-- `n`, bits 3:0 (R62). -/
def nField (op : Word) : BitVec 4 := op.extractLsb' 0 4
/-- `kk`, bits 7:0 (R62). -/
def kkField (op : Word) : Byte := op.extractLsb' 0 8
/-- `nnn`, bits 11:0 (R62). -/
def nnnField (op : Word) : Addr := op.extractLsb' 0 12

/-- Family 0: the eight listed patterns; every other `0nnn` is reserved (R65, R66). -/
def decode0 (op : Word) : Option Instr :=
  if xField op = 0x0#4 ∧ yField op = 0xC#4 then some (.scd (nField op))
  else if nnnField op = 0x0E0#12 then some .cls
  else if nnnField op = 0x0EE#12 then some .ret
  else if nnnField op = 0x0FB#12 then some .scr
  else if nnnField op = 0x0FC#12 then some .scl
  else if nnnField op = 0x0FD#12 then some .exit
  else if nnnField op = 0x0FE#12 then some .low
  else if nnnField op = 0x0FF#12 then some .high
  else none

/-- Family 8: the nine listed low nibbles; the others are reserved (R65, R66). -/
def decode8 (op : Word) : Option Instr :=
  let x := xField op
  let y := yField op
  match nField op with
  | 0x0#4 => some (.ldReg x y)
  | 0x1#4 => some (.orReg x y)
  | 0x2#4 => some (.andReg x y)
  | 0x3#4 => some (.xorReg x y)
  | 0x4#4 => some (.addReg x y)
  | 0x5#4 => some (.subReg x y)
  | 0x6#4 => some (.shrReg x y)
  | 0x7#4 => some (.subnReg x y)
  | 0xE#4 => some (.shlReg x y)
  | _ => none

/-- Family E: `9E` and `A1`; the others are reserved (R65, R66). -/
def decodeE (op : Word) : Option Instr :=
  match kkField op with
  | 0x9E#8 => some (.skp (xField op))
  | 0xA1#8 => some (.sknp (xField op))
  | _ => none

/-- Family F: the ten listed low bytes; the others are reserved (R65, R66). -/
def decodeF (op : Word) : Option Instr :=
  let x := xField op
  match kkField op with
  | 0x07#8 => some (.ldVxDt x)
  | 0x0A#8 => some (.ldVxK x)
  | 0x15#8 => some (.ldDtVx x)
  | 0x18#8 => some (.ldStVx x)
  | 0x1E#8 => some (.addI x)
  | 0x29#8 => some (.ldF x)
  | 0x30#8 => some (.ldHf x)
  | 0x33#8 => some (.ldB x)
  | 0x55#8 => some (.stBlock x)
  | 0x65#8 => some (.ldBlock x)
  | _ => none

/-- R65: "The decoder selects the family by `fam` and then matches the sub-opcode inside the family." `none` is a
reserved encoding (R66). The result depends on the 16 bits alone (R67). -/
def decode (op : Word) : Option Instr :=
  match famField op with
  | 0x0#4 => decode0 op
  | 0x1#4 => some (.jp (nnnField op))
  | 0x2#4 => some (.call (nnnField op))
  | 0x3#4 => some (.seImm (xField op) (kkField op))
  | 0x4#4 => some (.sneImm (xField op) (kkField op))
  | 0x5#4 => if nField op = 0x0#4 then some (.seReg (xField op) (yField op)) else none
  | 0x6#4 => some (.ldImm (xField op) (kkField op))
  | 0x7#4 => some (.addImm (xField op) (kkField op))
  | 0x8#4 => decode8 op
  | 0x9#4 => if nField op = 0x0#4 then some (.sneReg (xField op) (yField op)) else none
  | 0xA#4 => some (.ldI (nnnField op))
  | 0xB#4 => some (.jpV0 (nnnField op))
  | 0xC#4 => some (.rnd (xField op) (kkField op))
  | 0xD#4 => some (.drw (xField op) (yField op) (nField op))
  | 0xE#4 => decodeE op
  | 0xF#4 => decodeF op
  | _ => none

/-- Why a byte sequence holds no instruction. -/
inductive DecodeError where
  /-- The word matches no row of R65 (R66). Safe: the machine raises DecodeFault. -/
  | reserved (op : Word)
  /-- Fewer than two bytes are left (R60). Safe: the fetch reads two bytes or faults. -/
  | truncated
  deriving DecidableEq, Repr

/-- The 16-bit opcode of two consecutive bytes, the byte at the lower address being bits 15:8 (R44). -/
def opcodeOfBytes (hi lo : Byte) : Word := hi ++ lo

/-- The byte of an opcode that lies at the lower address (R44). -/
def hiByte (op : Word) : Byte := op.extractLsb' 8 8
/-- The byte of an opcode that lies at the higher address (R44). -/
def loByte (op : Word) : Byte := op.extractLsb' 0 8

/-- Decode the first instruction of a byte sequence, with the bytes after it: total, and rejecting by name. -/
def decodeBytes : List Byte → Except DecodeError (Instr × List Byte)
  | hi :: lo :: rest =>
    match decode (opcodeOfBytes hi lo) with
    | some i => .ok (i, rest)
    | none => .error (.reserved (opcodeOfBytes hi lo))
  | [_] => .error .truncated
  | [] => .error .truncated

/-- Format `XKK` (R63). -/
def encXKK (fam : BitVec 4) (x : RegIdx) (kk : Byte) : Word := fam ++ x ++ kk
/-- Format `NNN` (R63). -/
def encNNN (fam : BitVec 4) (nnn : Addr) : Word := fam ++ nnn
/-- Formats `XY` (a fixed low nibble) and `XYN` (R63). -/
def encXYN (fam : BitVec 4) (x y : RegIdx) (n : BitVec 4) : Word := fam ++ x ++ y ++ n

/-- The opcode of an instruction, from the formats of R63 and the patterns of R65. -/
def encode : Instr → Word
  | .scd n => 0x00C#12 ++ n
  | .cls => 0x00E0#16
  | .ret => 0x00EE#16
  | .scr => 0x00FB#16
  | .scl => 0x00FC#16
  | .exit => 0x00FD#16
  | .low => 0x00FE#16
  | .high => 0x00FF#16
  | .jp nnn => encNNN 0x1#4 nnn
  | .call nnn => encNNN 0x2#4 nnn
  | .seImm x kk => encXKK 0x3#4 x kk
  | .sneImm x kk => encXKK 0x4#4 x kk
  | .seReg x y => encXYN 0x5#4 x y 0x0#4
  | .ldImm x kk => encXKK 0x6#4 x kk
  | .addImm x kk => encXKK 0x7#4 x kk
  | .ldReg x y => encXYN 0x8#4 x y 0x0#4
  | .orReg x y => encXYN 0x8#4 x y 0x1#4
  | .andReg x y => encXYN 0x8#4 x y 0x2#4
  | .xorReg x y => encXYN 0x8#4 x y 0x3#4
  | .addReg x y => encXYN 0x8#4 x y 0x4#4
  | .subReg x y => encXYN 0x8#4 x y 0x5#4
  | .shrReg x y => encXYN 0x8#4 x y 0x6#4
  | .subnReg x y => encXYN 0x8#4 x y 0x7#4
  | .shlReg x y => encXYN 0x8#4 x y 0xE#4
  | .sneReg x y => encXYN 0x9#4 x y 0x0#4
  | .ldI nnn => encNNN 0xA#4 nnn
  | .jpV0 nnn => encNNN 0xB#4 nnn
  | .rnd x kk => encXKK 0xC#4 x kk
  | .drw x y n => encXYN 0xD#4 x y n
  | .skp x => encXKK 0xE#4 x 0x9E#8
  | .sknp x => encXKK 0xE#4 x 0xA1#8
  | .ldVxDt x => encXKK 0xF#4 x 0x07#8
  | .ldVxK x => encXKK 0xF#4 x 0x0A#8
  | .ldDtVx x => encXKK 0xF#4 x 0x15#8
  | .ldStVx x => encXKK 0xF#4 x 0x18#8
  | .addI x => encXKK 0xF#4 x 0x1E#8
  | .ldF x => encXKK 0xF#4 x 0x29#8
  | .ldHf x => encXKK 0xF#4 x 0x30#8
  | .ldB x => encXKK 0xF#4 x 0x33#8
  | .stBlock x => encXKK 0xF#4 x 0x55#8
  | .ldBlock x => encXKK 0xF#4 x 0x65#8

/-- The two bytes of an instruction as memory holds them (R44). -/
def encodeBytes (i : Instr) : List Byte := [hiByte (encode i), loByte (encode i)]

/-- The opcode word the opcode table's numbering gives: bit 0 is the least significant bit of the one 16-bit
word, and every bit from `nbits` on is 0. -/
def tableWord (nbits w : Nat) : Word := BitVec.ofNat 16 (w % 2 ^ nbits)

/-- The instruction the decoder reads from the two bytes of a word of the opcode table. -/
def decodeTableWord (nbits w : Nat) : Option Instr :=
  match decodeBytes [hiByte (tableWord nbits w), loByte (tableWord nbits w)] with
  | .ok (i, _) => some i
  | .error _ => none

end Sys2Proof
end

