-- ==== Sys2Proof/Config.lean ====
section
/-! DEFINITION. What an implementation fixes (spec 00_scope.md R5) and the values only the host can supply.
The constants without a body are the free values: nothing can be proved of what they are. -/

namespace Sys2Proof.Config

/-- MEM_SIZE: bytes of memory (R5, R40). -/
def memSize : Nat := 4096

/-- FONT_END: the first byte above the font region (R5, R41). -/
def fontEnd : Nat := 240

/-- LOFONT_STRIDE, with base 0 (R5, R162). -/
def loFontStride : Nat := 5

/-- HIFONT_STRIDE (R5, R163). -/
def hiFontStride : Nat := 10

/-- HIFONT_BASE: the literal of the operation table, kept by conflict C1 and decision D18; the alternative is 80. -/
def hiFontBase : Nat := 40

/-- SIDE_SCROLL: columns moved by `00FB` and `00FC` (R5). -/
def sideScroll : Nat := 4

/-- The default font table, which the source does not print: a parameter of load (R3, R231). FREE. -/
opaque defaultFont : Vector Byte 240

/-- The `n`-th random byte the host draws where State lists none (R219: any value). FREE. -/
opaque randByte : Nat → Byte

/-- Whether a key code is down at the host's `n`-th answer where State lists none (R217: any value). FREE. -/
opaque keyDown : Nat → Byte → Bool

/-- The host's `n`-th answer to `KeyWait` where State lists none: a code, or not answered yet (R218). FREE. -/
opaque keyCode : Nat → Option Byte

end Sys2Proof.Config
end

