-- ==== Sys2Proof/Machine/State.lean ====
section
/-! DEFINITION. The state of the core (spec 10_state.md) as plain data, the host's side of the interface as data
the step reads, the reasons a step can stop, and the state after reset. -/

namespace Sys2Proof.Machine

/-- The resolution mode, one bit: LOW is 0, HIGH is 1 (R21). -/
inductive Mode where
  | low
  | high
  deriving DecidableEq, Repr

/-- The run status (R23). -/
inductive Status where
  | running
  | exited
  | faulted
  deriving DecidableEq, Repr

/-- The fault causes of R201; `none` is code 0, "no fault". -/
inductive FaultCause where
  | none
  | decodeFault
  | stackOverflow
  | stackUnderflow
  | addressFault
  deriving DecidableEq, Repr

/-- Memory: the listed bytes by address, addresses rising and below 4096, no listed byte equal to 0, which is what
every unlisted address holds (R25: memory after reset is 0; R40: all of 0..4095 is backed). -/
abbrev Memory := List Host.Cell

/-- The display engine's state (R20 to R22). -/
structure Display where
  /-- `FB`: row `r` of the 64, row 0 the top one (R20, R80). -/
  fb    : Vector Row 64
  /-- `MODE` (R21). -/
  mode  : Mode
  /-- `DIRTY` (R22). -/
  dirty : Bool
  deriving DecidableEq, Repr

/-- A transaction the host issues (R4). Queries are not listed: they change nothing (R26). -/
inductive Transaction where
  /-- One CPU tick (R69). -/
  | cpuTick
  /-- One timer tick (R214). -/
  | timerTick
  /-- `Load(at, program, font?)` (R231); no font is the default table. -/
  | load (base : Nat) (program : List Byte) (font : Option (Vector Byte 240))
  /-- Power-on reset (R230). -/
  | reset
  /-- `read()` of the display (R87). -/
  | read
  /-- `read_px(x, y)` (R88). -/
  | readPx (x y : Nat)
  deriving DecidableEq, Repr

/-- The host's side, which is not state of the core (R24): the transactions it will issue and the answers it has
ready for the three capabilities. DESIGN CHOICE, unsafe for a claim that fixes a list, safe for a claim about every
state (notes/assumptions/1.md to 4.md). -/
structure HostSide where
  /-- Transactions still to perform, the next first; none listed means the host issues a CPU tick. -/
  schedule  : List Transaction
  /-- Answers of `RandByte` (R219). -/
  randBytes : List Byte
  /-- For each coming `KeyState` query, the codes that are down (R217). -/
  keysDown  : List (List Byte)
  /-- Answers of `KeyWait`; `none` is a moment at which the host has not answered yet (R218). -/
  keyCodes  : List (Option Byte)
  /-- How many free answers were taken from Config, where a list above was empty. -/
  drawn     : Nat
  deriving DecidableEq, Repr

/-- Everything the spec gives the machine (10_state.md) and the host's side. -/
structure State where
  /-- `V0..VF` (R10). -/
  v       : Vector Byte 16
  /-- `PC` (R13). -/
  pc      : Word
  /-- `I` (R14). -/
  i       : Addr
  /-- `SP`, legal values 0..16 (R15). -/
  sp      : BitVec 5
  /-- `STACK[1..16]`: slot `k` stands at position `k - 1` (R15). -/
  stack   : Vector Addr 16
  /-- `DT` (R18). -/
  dt      : Byte
  /-- `ST` (R18). -/
  st      : Byte
  /-- `MEM` (R19). -/
  mem     : Memory
  /-- `FB`, `MODE`, `DIRTY` (R20 to R22). -/
  disp    : Display
  /-- `STATUS` (R23). -/
  status  : Status
  /-- `FCAUSE` (R23). -/
  fcause  : FaultCause
  /-- `FOPCODE` (R23). -/
  fopcode : Word
  /-- `FPC` (R23). -/
  fpc     : Word
  /-- The stall of `Fx0A`: the register a CPU tick in progress waits to write (R218, R222). -/
  waiting : Option RegIdx
  /-- The host's side. -/
  host    : HostSide
  deriving DecidableEq, Repr

/-- Why the model itself stops. The faults of R201 are not here: they are next states with the fault record set. -/
inductive Fault where
  /-- Raised by CALL and RET when SP is above 16, which R15 calls no legal value and gives no meaning. DESIGN
  CHOICE, safe: no run from a legal state reaches it (notes/assumptions/6.md). -/
  | stackPointerOutOfRange
  deriving DecidableEq, Repr

/-- Why a step has no meaning. -/
inductive Refusal where
  /-- Raised by exec for an instruction without a meaning. Safe. No arm of exec answers it now. -/
  | notModelled (mnemonic : String)
  /-- Raised by a load transaction that violates R232: "A model gives a load that violates either requirement no
  move." Safe. -/
  | loadRefused
  /-- Raised by a `read_px` transaction whose coordinates are out of range, "a host error with no defined answer"
  (R88). Safe. -/
  | pixelOutOfRange
  deriving DecidableEq, Repr

/-- What a meaning and a step answer. -/
abbrev Result := Host.Outcome State Fault Refusal

/-- The display after power-on reset (R25). -/
def Display.reset : Display := { fb := Vector.replicate 64 0, mode := .low, dirty := false }

/-- The host's side at reset: nothing listed. DESIGN CHOICE, unsafe for a claim that fixes it
(notes/assumptions/22.md). -/
def HostSide.reset : HostSide :=
  { schedule := [], randBytes := [], keysDown := [], keyCodes := [], drawn := 0 }

/-- The state after power-on reset (R25, R230). -/
def State.reset : State :=
  { v := Vector.replicate 16 0, pc := 0, i := 0, sp := 0, stack := Vector.replicate 16 0, dt := 0, st := 0,
    mem := [], disp := Display.reset, status := .running, fcause := .none, fopcode := 0, fpc := 0,
    waiting := none, host := HostSide.reset }

end Sys2Proof.Machine
end

