-- ==== Sys2Proof/Machine/Ops.lean ====
section
/-! DEFINITION. The named operations over registers, the program counter, memory, the stack, the host's answers and
the timers, and taking a fault (spec 10_state.md, 20_memory.md, 60_exceptions.md). -/

namespace Sys2Proof.Machine

/-! ### General registers (R10) -/

/-- Read `V[x]`. No register is hardwired (R10). -/
def State.getV (s : State) (x : RegIdx) : Byte := s.v[x.toNat]'x.isLt

/-- Write `V[x]` (R10). -/
def State.setV (s : State) (x : RegIdx) (b : Byte) : State := { s with v := s.v.set x.toNat b x.isLt }

/-- The 16 registers given by a function of the register number. Irreducible, so that no proof compares them one by
one. -/
@[irreducible] def regsOf (f : Fin 16 → Byte) : Vector Byte 16 := Vector.ofFn f

/-! ### Program counter (R13, R68, R117) -/

/-- Write `PC`. -/
def State.setPc (s : State) (t : Word) : State := { s with pc := t }

/-- The default next `PC`, `pc0 + 2` (R68). -/
def State.advance (s : State) : State := s.setPc (s.pc + 2#16)

/-- A skip: `pc0 + 4` when the condition holds, else `pc0 + 2` (R117). -/
def State.skipIf (s : State) (c : Bool) : State := s.setPc (if c then s.pc + 4#16 else s.pc + 2#16)

/-! ### Memory (R40 to R53) -/

/-- The byte at an address; an unlisted address holds 0 (R25). -/
def Memory.read : Memory → Nat → Byte
  | [], _ => 0#8
  | (k, b) :: rest, a => if k = a then b else Memory.read rest a

/-- Replace the byte at an address, keeping the list in its canonical form. -/
def Memory.write : Memory → Nat → Byte → Memory
  | [], a, b => if b = 0#8 then [] else [(a, b)]
  | (k, c) :: rest, a, b =>
    if a < k then (if b = 0#8 then (k, c) :: rest else (a, b) :: (k, c) :: rest)
    else if a = k then (if b = 0#8 then rest else (a, b) :: rest)
    else (k, c) :: Memory.write rest a b

/-- Write bytes one after another from an address up, in order (R46: each a single byte). -/
def Memory.writeList : Memory → Nat → List Byte → Memory
  | m, _, [] => m
  | m, a, b :: bs => Memory.writeList (Memory.write m a b) (a + 1) bs

/-- The `n` bytes from an address up, lowest address first. -/
def Memory.readList (m : Memory) (a n : Nat) : List Byte := (List.range n).map fun k => Memory.read m (a + k)

/-- The canonical form from a lower bound on: addresses rising from `lo`, below `memSize`, no byte 0. -/
def Memory.wfFrom : Nat → Memory → Bool
  | _, [] => true
  | lo, (k, b) :: rest =>
    decide (lo ≤ k) && decide (k < Config.memSize) && decide (b ≠ 0#8) && Memory.wfFrom (k + 1) rest

/-- The canonical form of memory. -/
def Memory.wf (m : Memory) : Bool := Memory.wfFrom 0 m

/-- Whether `n` bytes from an address up lie inside 0..4095; addresses are exact naturals (R43, R53). -/
def inRange (a n : Nat) : Bool := decide (a + n ≤ Config.memSize)

/-! ### Fetch (R44, R61) -/

/-- The opcode at `PC`, or none when `pc0 > 0xFFE` (R61). -/
def State.fetchOpcode (s : State) : Option Word :=
  if inRange s.pc.toNat 2 then
    some (opcodeOfBytes (Memory.read s.mem s.pc.toNat) (Memory.read s.mem (s.pc.toNat + 1)))
  else none

/-! ### Taking a fault, and the exit (R200, R207, R210, R212)

There is no handler and no return from a fault (R210, R211): the return to RUNNING is `loadProgram` and
`powerOnReset` in Machine/Transactions.lean. -/

/-- The cause codes of R201. -/
def FaultCause.code : FaultCause → Nat
  | .none => 0
  | .decodeFault => 1
  | .stackOverflow => 2
  | .stackUnderflow => 3
  | .addressFault => 4

/-- `raise` (R200, R207): STATUS becomes FAULTED, the record takes the cause, the fetched opcode (0 for a fault of
the fetch) and `pc0`; nothing else changes, and `PC` stays `pc0` (R206). -/
def raiseFault (c : FaultCause) (opcode : Word) (s : State) : State :=
  { s with status := .faulted, fcause := c, fopcode := opcode, fpc := s.pc }

/-- A fault raised by an instruction in its execute stage. The opcode fetched is the encoding of the instruction,
because no opcode bit is a don't-care (R62, notes/assumptions/7.md). -/
def raiseIn (c : FaultCause) (i : Instr) (s : State) : Result := .next (raiseFault c (encode i) s)

/-- `signal EXIT` (R212). -/
def signalExit (s : State) : State := { s with status := .exited }

/-- What a CPU tick reports (R200). -/
inductive TickReport where
  | ok
  | exit
  | fault (cause : FaultCause) (opcode pc0 : Word)
  deriving DecidableEq, Repr

/-- The report of the last CPU tick, a function of the state after it (R23); none while the tick waits in `Fx0A`. -/
def State.tickReport (s : State) : Option TickReport :=
  match s.waiting, s.status with
  | some _, _ => none
  | none, .running => some .ok
  | none, .exited => some .exit
  | none, .faulted => some (.fault s.fcause s.fopcode s.fpc)

/-- The `info` of R201: the opcode of a DecodeFault, the first address of the access of an AddressFault (`pc0` for
fetch, `I` for the others), nothing for the stack faults. It is read off the record, PC and I, which a faulted core
keeps (notes/assumptions/16.md). -/
def State.faultInfo (s : State) : Option Nat :=
  match s.status, s.fcause with
  | .faulted, .decodeFault => some s.fopcode.toNat
  | .faulted, .addressFault => some (if inRange s.fpc.toNat 2 then s.i.toNat else s.fpc.toNat)
  | _, _ => none

/-! ### The return-address stack (R15 to R17) -/

/-- Why a push or a pop does not complete. -/
inductive StackError where
  /-- R16: `SP = 16` at the push. -/
  | overflow
  /-- R17: `SP = 0` at the pop. -/
  | underflow
  /-- SP holds no legal value (R15). -/
  | illegal
  deriving DecidableEq, Repr

/-- `push(a)` (R16): `SP <- SP + 1; STACK[SP] <- a`. -/
def push (a : Addr) (s : State) : Except StackError State :=
  if h : s.sp.toNat < 16 then .ok { s with sp := s.sp + 1#5, stack := s.stack.set s.sp.toNat a h }
  else if s.sp = 16#5 then .error .overflow
  else .error .illegal

/-- `pop()` (R17): `a <- STACK[SP]; SP <- SP - 1`; the slot keeps its value (R15). -/
def pop (s : State) : Except StackError (Addr × State) :=
  if s.sp = 0#5 then .error .underflow
  else if h : s.sp.toNat - 1 < 16 then .ok (s.stack[s.sp.toNat - 1]'h, { s with sp := s.sp - 1#5 })
  else .error .illegal

/-- How an instruction ends whose push or pop does not complete (R203, R204; for an illegal SP see
notes/assumptions/6.md). -/
def stackStop (e : StackError) (i : Instr) (s : State) : Result :=
  match e with
  | .overflow => raiseIn .stackOverflow i s
  | .underflow => raiseIn .stackUnderflow i s
  | .illegal => .fault .stackPointerOutOfRange

/-! ### The host's answers (R217 to R219) -/

/-- Replace the host's side. -/
def State.setHost (s : State) (h : HostSide) : State := { s with host := h }

/-- `RandByte()` (R219): the next listed answer, or a free byte. -/
def HostSide.randByte (h : HostSide) : Byte × HostSide :=
  match h.randBytes with
  | b :: rest => (b, { h with randBytes := rest })
  | [] => (Config.randByte h.drawn, { h with drawn := h.drawn + 1 })

/-- `KeyState(c)` (R217): by the next listed set of codes that are down, or a free bit. The code is the whole byte,
not masked (R151). -/
def HostSide.keyState (h : HostSide) (c : Byte) : Bool × HostSide :=
  match h.keysDown with
  | down :: rest => (down.contains c, { h with keysDown := rest })
  | [] => (Config.keyDown h.drawn c, { h with drawn := h.drawn + 1 })

/-- One look at the host's answer to `KeyWait()` (R218): the next listed one, or a free one; `none` is "not
answered yet". -/
def HostSide.keyWait (h : HostSide) : Option Byte × HostSide :=
  match h.keyCodes with
  | c :: rest => (c, { h with keyCodes := rest })
  | [] => (Config.keyCode h.drawn, { h with drawn := h.drawn + 1 })

/-! ### Timers (R214, R215) -/

/-- One count-down step with a floor at 0 (R214). -/
def countDown (t : Byte) : Byte := if t = 0#8 then 0#8 else t - 1#8

/-- `TimerTick()` (R214): it works whatever STATUS is. -/
def timerTick (s : State) : State := { s with dt := countDown s.dt, st := countDown s.st }

/-- `sound_active` (R215). -/
def State.soundActive (s : State) : Bool := decide (s.st.toNat > 0)

end Sys2Proof.Machine
end

