-- ==== Sys2Proof/Machine/Flags.lean ====
section
/-! DEFINITION. The flag computations of spec 10_state.md R11 and how a flag is written (R12). `VF` is the only
flag. -/

namespace Sys2Proof.Machine

/-- A flag as `VF` holds it: 1 or 0. -/
def flagByte (f : Bool) : Byte := if f then 1#8 else 0#8

/-- Carry out of an addition: the exact sum is above 255 (R126). -/
def carryOut (a b : Byte) : Bool := decide (a.toNat + b.toNat > 255)

/-- No borrow in `a - b`: `a >= b` (R127, R129). -/
def noBorrow (a b : Byte) : Bool := decide (a.toNat ≥ b.toNat)

/-- The bit a right shift by one moves out (R128). -/
def lowBit (b : Byte) : Bool := b.getLsbD 0

/-- The bit a left shift by one moves out (R130). -/
def highBit (b : Byte) : Bool := b.getLsbD 7

/-- Write a result and then the flag: with `x = 0xF` the flag is what `VF` holds afterwards (R12). -/
def State.setResultFlag (s : State) (x : RegIdx) (r : Byte) (f : Bool) : State :=
  (s.setV x r).setV vf (flagByte f)

end Sys2Proof.Machine
end

