-- ==== Sys2Proof/Machine/Operands.lean ====
section
/-! DEFINITION. The operand forms of spec 30_encoding.md R64 beyond a register or an immediate: the memory operand
`I + k`, the register blocks, the BCD digits, the glyph addresses and the sprite. -/

namespace Sys2Proof.Machine

/-- The effective address `I + k`, exact and never reduced (R53). -/
def State.ea (s : State) (k : Nat) : Nat := s.i.toNat + k

/-- `nnn` as `PC` takes it: zero-extended (R64). -/
def targetOf (nnn : Addr) : Word := nnn.setWidth 16

/-- The target of `Bnnn`: `nnn + V0`, exact (R116). -/
def State.offsetTarget (s : State) (nnn : Addr) : Word := targetOf nnn + (s.getV 0#4).setWidth 16

/-- Where `00EE` goes: the popped address plus 2 (R102). -/
def returnTarget (a : Addr) : Word := targetOf a + 2#16

/-- The decimal digits of a byte: hundreds, tens, ones (R164). -/
def bcdDigits (b : Byte) : List Byte :=
  [BitVec.ofNat 8 (b.toNat / 100), BitVec.ofNat 8 (b.toNat / 10 % 10), BitVec.ofNat 8 (b.toNat % 10)]

/-- `5 * V[x]`, which fits 12 bits (R162). -/
def loGlyphAddr (b : Byte) : Addr := BitVec.ofNat 12 (Config.loFontStride * b.toNat)

/-- `10 * V[x] + 40`, which fits 12 bits (R163). -/
def hiGlyphAddr (b : Byte) : Addr := BitVec.ofNat 12 (Config.hiFontStride * b.toNat + Config.hiFontBase)

/-- `(I + V[x]) mod 4096` (R161). -/
def State.indexSum (s : State) (b : Byte) : Addr := s.i + b.setWidth 12

/-- How many registers `V0..Vx` are (R165, R166). -/
def blockLen (x : RegIdx) : Nat := x.toNat + 1

/-- The values of `V0..Vx`, `V0` first (R165). -/
def State.regBlock (s : State) (x : RegIdx) : List Byte :=
  (List.range (blockLen x)).map fun k => s.getV (BitVec.ofNat 4 k)

/-- `V0..Vx` taken from memory at `I`, the other registers as they are (R166). -/
def State.loadBlock (s : State) (x : RegIdx) : State :=
  { s with v := regsOf fun r =>
      if r.val < blockLen x then Memory.read s.mem (s.ea r.val) else s.v[r.val] }

/-- Whether `Dxyn` draws a 16x16 sprite: `n = 0` in high-resolution mode (R140). -/
def isBig (m : Mode) (n : BitVec 4) : Bool := decide (n = 0#4) && decide (m = .high)

/-- How many sprite bytes `Dxyn` reads (R140). -/
def spriteLen (m : Mode) (n : BitVec 4) : Nat := if isBig m n then 32 else n.toNat

end Sys2Proof.Machine
end

