-- ==== Sys2Proof/Machine/Alu.lean ====
section
/-! DEFINITION. Register loads and the arithmetic of family 8 (spec 43_alu.md). All arithmetic is unsigned and wraps
modulo 256 (R131). -/

namespace Sys2Proof.Machine

/-- Write a register and go on: the instructions that leave the flag alone. -/
def writeReg (x : RegIdx) (r : Byte) (s : State) : Result := .next (s.setV x r).advance

/-- Write a register, then the flag, and go on (R12). -/
def writeFlagged (x : RegIdx) (r : Byte) (f : Bool) (s : State) : Result := .next (s.setResultFlag x r f).advance

/-- LD Vx, kk (R120). -/
def execLdImm (x : RegIdx) (kk : Byte) (s : State) : Result := writeReg x kk s

/-- ADD Vx, kk (R121): no flag effect. -/
def execAddImm (x : RegIdx) (kk : Byte) (s : State) : Result := writeReg x (s.getV x + kk) s

/-- LD Vx, Vy (R122). -/
def execLdReg (x y : RegIdx) (s : State) : Result := writeReg x (s.getV y) s

/-- OR Vx, Vy (R123). -/
def execOrReg (x y : RegIdx) (s : State) : Result := writeReg x (s.getV x ||| s.getV y) s

/-- AND Vx, Vy (R124). -/
def execAndReg (x y : RegIdx) (s : State) : Result := writeReg x (s.getV x &&& s.getV y) s

/-- XOR Vx, Vy (R125). -/
def execXorReg (x y : RegIdx) (s : State) : Result := writeReg x (s.getV x ^^^ s.getV y) s

/-- ADD Vx, Vy (R126): VF is the carry. -/
def execAddReg (x y : RegIdx) (s : State) : Result :=
  writeFlagged x (s.getV x + s.getV y) (carryOut (s.getV x) (s.getV y)) s

/-- SUB Vx, Vy (R127): VF is NOT borrow. -/
def execSubReg (x y : RegIdx) (s : State) : Result :=
  writeFlagged x (s.getV x - s.getV y) (noBorrow (s.getV x) (s.getV y)) s

/-- SHR Vx, Vy (R128): Vy is shifted, the old Vx is no operand. -/
def execShrReg (x y : RegIdx) (s : State) : Result := writeFlagged x (s.getV y >>> 1) (lowBit (s.getV y)) s

/-- SUBN Vx, Vy (R129): `Vy - Vx`. -/
def execSubnReg (x y : RegIdx) (s : State) : Result :=
  writeFlagged x (s.getV y - s.getV x) (noBorrow (s.getV y) (s.getV x)) s

/-- SHL Vx, Vy (R130): Vy is shifted, the old Vx is no operand. -/
def execShlReg (x y : RegIdx) (s : State) : Result := writeFlagged x (s.getV y <<< 1) (highBit (s.getV y)) s

end Sys2Proof.Machine
end

