-- ==== Sys2Proof/Machine/ControlFlow.lean ====
section
/-! DEFINITION. Jumps, the call and the register skips (spec 42_control_flow.md). -/

namespace Sys2Proof.Machine

/-- JP nnn (R110). -/
def execJp (nnn : Addr) (s : State) : Result := .next (s.setPc (targetOf nnn))

/-- CALL nnn (R111): the address of the CALL itself is pushed; StackOverflow when 16 frames are live (R203). -/
def execCall (nnn : Addr) (s : State) : Result :=
  match push (s.pc.extractLsb' 0 12) s with
  | .ok t => .next (t.setPc (targetOf nnn))
  | .error e => stackStop e (.call nnn) s

/-- SE Vx, kk (R112). -/
def execSeImm (x : RegIdx) (kk : Byte) (s : State) : Result := .next (s.skipIf (s.getV x == kk))

/-- SNE Vx, kk (R113). -/
def execSneImm (x : RegIdx) (kk : Byte) (s : State) : Result := .next (s.skipIf (s.getV x != kk))

/-- SE Vx, Vy (R114). -/
def execSeReg (x y : RegIdx) (s : State) : Result := .next (s.skipIf (s.getV x == s.getV y))

/-- SNE Vx, Vy (R115). -/
def execSneReg (x y : RegIdx) (s : State) : Result := .next (s.skipIf (s.getV x != s.getV y))

/-- JP V0, nnn (R116). -/
def execJpV0 (nnn : Addr) (s : State) : Result := .next (s.setPc (s.offsetTarget nnn))

end Sys2Proof.Machine
end

