-- ==== Sys2Proof/Machine/DisplayOps.lean ====
section
/-! DEFINITION. The display engine's primitives (spec 40_display_engine.md). -/

namespace Sys2Proof.Machine

/-- Rotate a row right: bit `p` becomes bit `(p - k) mod 128`, so a pixel moves `k` columns right (00_scope.md
section 5, R80). -/
def ror128 (r : Row) (k : Nat) : Row := r.rotateRight (k % 128)

/-- Rotate a row left: `ror128(v, 128 - (k mod 128))` (00_scope.md section 5). -/
def rol128 (r : Row) (k : Nat) : Row := ror128 r (128 - k % 128)

/-- The pixel at buffer column `c` of a row: bit `127 - c` (R80). -/
def pixel (r : Row) (c : Nat) : Bool := r.getLsbD (127 - c)

/-- The 64 rows given by a function of the row number. Irreducible, so that no proof compares 64 rows one by one. -/
@[irreducible] def rowsOf (f : Fin 64 → Row) : Vector Row 64 := Vector.ofFn f

/-- `expand(b)` (R81): bit `i` of the byte becomes bits `2i` and `2i + 1`. -/
def expand (b : Byte) : BitVec 16 :=
  (List.range 8).foldl (fun e i => if b.getLsbD i then e ||| (0x3#16 <<< (2 * i)) else e) 0#16

/-- The pattern of a sprite byte positioned at its column (R82): M of the rule. -/
def spriteMask (m : Mode) (b : Byte) (x : Nat) : Row :=
  match m with
  | .low => ror128 ((expand b).setWidth 128 <<< 112) (2 * x % 128)
  | .high => ror128 (b.setWidth 128 <<< 120) (x % 128)

/-- The rows a sprite byte goes to (R82): `y mod 64`, or `2y mod 64` and the row after it. -/
def spriteRows (m : Mode) (y : Nat) : List (Fin 64) :=
  match m with
  | .low => [Fin.ofNat 64 (2 * y), Fin.ofNat 64 (2 * y + 1)]
  | .high => [Fin.ofNat 64 y]

/-- XOR a pattern into one row (R82). -/
def xorRow (mask : Row) (fb : Vector Row 64) (r : Fin 64) : Vector Row 64 :=
  fb.set r.val (fb[r.val] ^^^ mask) r.isLt

/-- `write(b, x, y)` (R82): whether a set pixel was erased (R83; the rows are distinct, so each is tested as it was
before its own XOR), and the display after it, always dirty. -/
def Display.writeByte (d : Display) (b : Byte) (x y : Nat) : Bool × Display :=
  let mask := spriteMask d.mode b x
  let rows := spriteRows d.mode y
  (rows.any fun r => d.fb[r.val] &&& mask != 0#128,
   { d with fb := rows.foldl (xorRow mask) d.fb, dirty := true })

/-- One `write` call: the byte and its coordinates. -/
abbrev WriteCall := Byte × Nat × Nat

/-- A sequence of `write` calls; the flag is the OR of what they return (R140). -/
def Display.writeAll : Display → List WriteCall → Bool × Display
  | d, [] => (false, d)
  | d, (b, x, y) :: calls =>
    let first := d.writeByte b x y
    let rest := Display.writeAll first.2 calls
    (first.1 || rest.1, rest.2)

/-- The `write` calls of a sprite (R140): one byte a row, or, in a 16x16 sprite, two bytes a row, the one at the
lower address 8 columns left of the other. -/
def spriteCalls (big : Bool) (px py : Nat) (bytes : List Byte) : List WriteCall :=
  bytes.zipIdx.map fun (b, k) => if big then (b, px + 8 * (k % 2), py + k / 2) else (b, px, py + k)

/-- `scroll_down(n)` (R84): the rows rotate down by `n`, then rows 0 and 1 are zeroed. -/
def Display.scrollDown (d : Display) (n : Nat) : Display :=
  { d with
    fb := rowsOf fun r => if r.val < 2 then 0#128 else d.fb[(r.val + (64 - n % 64)) % 64]'(Nat.mod_lt _ (by decide))
    dirty := true }

/-- `scroll_side(n)` (R85): every row rotates right for `n > 0`, left for `n < 0`; `n = 0` does nothing. -/
def Display.scrollSide (d : Display) (n : Int) : Display :=
  if n > 0 then { d with fb := rowsOf fun r => ror128 d.fb[r.val] n.natAbs, dirty := true }
  else if n < 0 then { d with fb := rowsOf fun r => rol128 d.fb[r.val] n.natAbs, dirty := true }
  else d

/-- `clear()` (R86). -/
def Display.clear (d : Display) : Display := { d with fb := rowsOf fun _ => 0#128, dirty := true }

/-- `low_res_mode()` and `hi_res_mode()` (R89): neither the buffer nor the dirty flag changes. -/
def Display.setMode (d : Display) (m : Mode) : Display := { d with mode := m }

/-- The side effect of `read()` and `read_px` (R87, R88): DIRTY becomes 0. -/
def Display.markRead (d : Display) : Display := { d with dirty := false }

/-- The encoding of the mode flag (R21). -/
def Mode.bit : Mode → BitVec 1
  | .low => 0
  | .high => 1

end Sys2Proof.Machine
end

