-- ==== Sys2Proof/Machine/Draw.lean ====
section
/-! DEFINITION. The draw instruction (spec 44_draw.md). -/

namespace Sys2Proof.Machine

/-- The display and the collision flag a sprite gives: its coordinates, then its bytes, are read before anything is
written (R140). -/
def State.drawn (s : State) (x y : RegIdx) (n : BitVec 4) : Bool × Display :=
  s.disp.writeAll
    (spriteCalls (isBig s.disp.mode n) (s.getV x).toNat (s.getV y).toNat
      (Memory.readList s.mem (s.ea 0) (spriteLen s.disp.mode n)))

/-- DRW Vx, Vy, n (R140): AddressFault, with nothing drawn, when the sprite reaches above 0xFFF; else VF, written
last, says whether any pixel was erased. -/
def execDrw (x y : RegIdx) (n : BitVec 4) (s : State) : Result :=
  if inRange (s.ea 0) (spriteLen s.disp.mode n) then
    .next { ((s.setV vf (flagByte (s.drawn x y n).1)).advance) with disp := (s.drawn x y n).2 }
  else raiseIn .addressFault (.drw x y n) s

end Sys2Proof.Machine
end

