-- ==== Sys2Proof/Machine/IndexMemory.lean ====
section
/-! DEFINITION. The index register and memory (spec 46_index_memory.md). No instruction here changes `I` as a side
effect of a memory access. -/

namespace Sys2Proof.Machine

/-- Write `I` and go on. -/
def writeIndex (a : Addr) (s : State) : Result := .next { s.advance with i := a }

/-- Store bytes from `I` up and go on, after the check of the whole range (R43, R206); else AddressFault with no
byte written (R205). -/
def storeAtIndex (bytes : List Byte) (instr : Instr) (s : State) : Result :=
  if inRange (s.ea 0) bytes.length then .next { s.advance with mem := Memory.writeList s.mem (s.ea 0) bytes }
  else raiseIn .addressFault instr s

/-- LD I, nnn (R160). -/
def execLdI (nnn : Addr) (s : State) : Result := writeIndex nnn s

/-- ADD I, Vx (R161): modulo 4096, no flag effect. -/
def execAddI (x : RegIdx) (s : State) : Result := writeIndex (s.indexSum (s.getV x)) s

/-- LD F, Vx (R162). -/
def execLdF (x : RegIdx) (s : State) : Result := writeIndex (loGlyphAddr (s.getV x)) s

/-- LD HF, Vx (R163). -/
def execLdHf (x : RegIdx) (s : State) : Result := writeIndex (hiGlyphAddr (s.getV x)) s

/-- LD B, Vx (R164). -/
def execLdB (x : RegIdx) (s : State) : Result := storeAtIndex (bcdDigits (s.getV x)) (.ldB x) s

/-- LD [I], Vx (R165). -/
def execStBlock (x : RegIdx) (s : State) : Result := storeAtIndex (s.regBlock x) (.stBlock x) s

/-- LD Vx, [I] (R166). -/
def execLdBlock (x : RegIdx) (s : State) : Result :=
  if inRange (s.ea 0) (blockLen x) then .next (s.loadBlock x).advance
  else raiseIn .addressFault (.ldBlock x) s

end Sys2Proof.Machine
end

