-- ==== Sys2Proof/Machine/KeyWait.lean ====
section
/-! DEFINITION. The wait of `Fx0A` (spec 45_keys_timers_random.md R154, 60_exceptions.md R218), shared by the
instruction and by the steps that resume it. -/

namespace Sys2Proof.Machine

/-- One moment of `LD Vx, K`: where the host has answered, `V[x] <- c`, `PC <- pc0 + 2` and the tick ends; where it
has not, the tick stays in progress and nothing of the core changes (R218). -/
def keyWaitMoment (x : RegIdx) (s : State) : State :=
  let (answer, host) := s.host.keyWait
  match answer with
  | some c => { ((s.setV x c).advance.setHost host) with waiting := none }
  | none => { (s.setHost host) with waiting := some x }

end Sys2Proof.Machine
end

