-- ==== Sys2Proof/Machine/KeysTimers.lean ====
section
/-! DEFINITION. Random, keys and timers (spec 45_keys_timers_random.md). -/

namespace Sys2Proof.Machine

/-- RND Vx, kk (R150): exactly one byte is drawn. -/
def execRnd (x : RegIdx) (kk : Byte) (s : State) : Result :=
  .next (((s.setV x (s.host.randByte.1 &&& kk)).advance).setHost s.host.randByte.2)

/-- SKP Vx (R151): skip when the key is down; exactly one query. -/
def execSkp (x : RegIdx) (s : State) : Result :=
  .next ((s.skipIf (s.host.keyState (s.getV x)).1).setHost (s.host.keyState (s.getV x)).2)

/-- SKNP Vx (R152): skip when the key is not down; exactly one query. -/
def execSknp (x : RegIdx) (s : State) : Result :=
  .next ((s.skipIf (!(s.host.keyState (s.getV x)).1)).setHost (s.host.keyState (s.getV x)).2)

/-- LD Vx, DT (R153). -/
def execLdVxDt (x : RegIdx) (s : State) : Result := .next (s.setV x s.dt).advance

/-- LD Vx, K (R154): the first moment of the wait. -/
def execLdVxK (x : RegIdx) (s : State) : Result := .next (keyWaitMoment x s)

/-- LD DT, Vx (R155). -/
def execLdDtVx (x : RegIdx) (s : State) : Result := .next { s.advance with dt := s.getV x }

/-- LD ST, Vx (R156). -/
def execLdStVx (x : RegIdx) (s : State) : Result := .next { s.advance with st := s.getV x }

end Sys2Proof.Machine
end

