-- ==== Sys2Proof/Machine/SystemFamily.lean ====
section
/-! DEFINITION. Family 0: scroll, clear, return, exit, mode (spec 41_family0_system.md). -/

namespace Sys2Proof.Machine

/-- Replace the display and go on to the next instruction: what every display instruction of family 0 does. -/
def State.withDisplay (s : State) (d : Display) : State := { s.advance with disp := d }

/-- SCD n (R100). -/
def execScd (n : BitVec 4) (s : State) : Result := .next (s.withDisplay (s.disp.scrollDown n.toNat))

/-- CLS (R101). -/
def execCls (s : State) : Result := .next (s.withDisplay s.disp.clear)

/-- RET (R102): the popped address plus 2; StackUnderflow when the stack is empty (R204). -/
def execRet (s : State) : Result :=
  match pop s with
  | .ok (a, t) => .next (t.setPc (returnTarget a))
  | .error e => stackStop e .ret s

/-- SCR (R103): `scroll_side(+4)`. -/
def execScr (s : State) : Result := .next (s.withDisplay (s.disp.scrollSide (Config.sideScroll : Int)))

/-- SCL (R104): `scroll_side(-4)`. -/
def execScl (s : State) : Result := .next (s.withDisplay (s.disp.scrollSide (-(Config.sideScroll : Int))))

/-- EXIT (R105): only STATUS changes; PC stays `pc0`. -/
def execExit (s : State) : Result := .next (signalExit s)

/-- LOW (R106). -/
def execLow (s : State) : Result := .next (s.withDisplay (s.disp.setMode .low))

/-- HIGH (R107). -/
def execHigh (s : State) : Result := .next (s.withDisplay (s.disp.setMode .high))

end Sys2Proof.Machine
end

