-- ==== Sys2Proof/Machine/Transactions.lean ====
section
/-! DEFINITION. What the host does to the core and reads from it (spec 00_scope.md R4, 10_state.md R26,
40_display_engine.md R87, R88, 70_reset_and_hazards.md R230 to R232). -/

namespace Sys2Proof.Machine

/-- A load the core accepts (R231, R232): not over the font region, and inside memory. -/
def loadAccepted (base len : Nat) : Bool := decide (Config.fontEnd ≤ base) && decide (base + len ≤ Config.memSize)

/-- Coordinates `read_px` answers for (R88). -/
def pixelInRange (x y : Nat) : Bool := decide (x < 128) && decide (y < 64)

/-- The transactions that have a move (R88, R232). -/
def Transaction.wf : Transaction → Bool
  | .cpuTick => true
  | .timerTick => true
  | .load base program _ => loadAccepted base program.length
  | .reset => true
  | .read => true
  | .readPx x y => pixelInRange x y

/-- The font a load copies: the host's, or the default table (R231). -/
def fontOf (font : Option (Vector Byte 240)) : List Byte :=
  match font with
  | some f => f.toList
  | none => Config.defaultFont.toList

/-- The effect of an accepted load (R231): font, program, PC and STATUS; nothing else changes. -/
def loadProgram (base : Nat) (program : List Byte) (font : Option (Vector Byte 240)) (s : State) : State :=
  { s with
    mem := Memory.writeList (Memory.writeList s.mem 0 (fontOf font)) base program
    pc := BitVec.ofNat 16 base
    status := .running }

/-- Power-on reset (R230): every piece of the core's state at its value of R25; the host keeps its own side. -/
def powerOnReset (s : State) : State := { State.reset with host := s.host }

/-- The side effect of the display reads (R87, R88). -/
def markDisplayRead (s : State) : State := { s with disp := s.disp.markRead }

/-! ### What the host reads. None of these changes the state (R26). -/

/-- What `read()` returns (R87). -/
def State.displayRows (s : State) : Vector Row 64 := s.disp.fb

/-- What `read_px(x, y)` returns; out of range there is no answer (R88). -/
def State.displayPixel (s : State) (x y : Nat) : Option Bool :=
  if h : y < 64 then (if x < 128 then some (pixel (s.disp.fb[y]'h) x) else none) else none

/-- One memory byte; outside 0..4095 there is no answer (R26). -/
def State.queryByte (s : State) (a : Nat) : Option Byte :=
  if inRange a 1 then some (Memory.read s.mem a) else none

/-- The 16-bit opcode at an address in 0..4094 (R26, R44). -/
def State.queryOpcode (s : State) (a : Nat) : Option Word :=
  if inRange a 2 then some (opcodeOfBytes (Memory.read s.mem a) (Memory.read s.mem (a + 1))) else none

/-- What the read-only queries of R26 return: all of Machine State (registers, `I`, `DT`, `ST`, `PC`, `SP`, the stack
slots, memory), `sound_active`, `MODE`, `DIRTY` and the status state. -/
structure Snapshot where
  v           : Vector Byte 16
  i           : Addr
  dt          : Byte
  st          : Byte
  pc          : Word
  sp          : BitVec 5
  stack       : Vector Addr 16
  mem         : Memory
  soundActive : Bool
  mode        : BitVec 1
  dirty       : Bool
  status      : Status
  fcause      : Nat
  fopcode     : Word
  fpc         : Word
  deriving DecidableEq, Repr

/-- The answer of the queries (R26). -/
def State.snapshot (s : State) : Snapshot :=
  { v := s.v, i := s.i, dt := s.dt, st := s.st, pc := s.pc, sp := s.sp, stack := s.stack, mem := s.mem,
    soundActive := s.soundActive, mode := s.disp.mode.bit, dirty := s.disp.dirty, status := s.status,
    fcause := s.fcause.code, fopcode := s.fopcode, fpc := s.fpc }

end Sys2Proof.Machine
end

