-- ==== Sys2Proof/Machine/Cycle.lean ====
section
/-! DEFINITION. The instruction cycle (spec 30_encoding.md R69) and the host transactions around it (00_scope.md
R4). -/

namespace Sys2Proof.Machine

/-- `CpuTick()` (R69): a core that is not RUNNING changes nothing (R23, R211); else fetch, decode, execute, in the
priority of R208. -/
def cpuTick (s : State) : Result :=
  match s.status with
  | .exited => .next s
  | .faulted => .next s
  | .running =>
    match s.fetchOpcode with
    | none => .next (raiseFault .addressFault 0 s)
    | some op =>
      match decode op with
      | none => .next (raiseFault .decodeFault op s)
      | some i => exec i s

/-- One whole transaction of the host (R4). -/
def perform (t : Transaction) (s : State) : Result :=
  match t with
  | .cpuTick => cpuTick s
  | .timerTick => .next (timerTick s)
  | .load base program font =>
    if loadAccepted base program.length then .next (loadProgram base program font s) else .refused .loadRefused
  | .reset => .next (powerOnReset s)
  | .read => .next (markDisplayRead s)
  | .readPx x y => if pixelInRange x y then .next (markDisplayRead s) else .refused .pixelOutOfRange

/-- Take the next transaction off the host's schedule: an empty schedule is a CPU tick. -/
def HostSide.take (h : HostSide) : Transaction × HostSide :=
  match h.schedule with
  | [] => (.cpuTick, h)
  | t :: rest => (t, { h with schedule := rest })

/-- One step: a CPU tick in progress waits for its key and nothing else takes place (R154, R216); otherwise the
host's next transaction is performed whole. -/
def transact (s : State) : Result :=
  match s.waiting with
  | some x => .next (keyWaitMoment x s)
  | none => perform s.host.take.1 (s.setHost s.host.take.2)

/-- Put an opcode where the next step fetches it: at `PC`, in a core that is RUNNING, not in a wait, and whose next
transaction is a CPU tick. A `PC` that no fetch can use (above 0xFFE) is moved to 0x200. -/
def placeOpcode (op : Word) (s : State) : State :=
  let pc := if inRange s.pc.toNat 2 then s.pc else 0x200
  { s with
    pc := pc
    mem := Memory.writeList s.mem pc.toNat [hiByte op, loByte op]
    status := .running
    waiting := none
    host := { s.host with schedule := if s.host.schedule = [] then [] else .cpuTick :: s.host.schedule } }

end Sys2Proof.Machine
end

