-- ==== Sys2Proof/Machine/Step.lean ====
section
/-! DEFINITION. One step of the machine: the host's next transaction (spec 00_scope.md R4, 30_encoding.md R69). -/

namespace Sys2Proof.Machine

/-- One step. -/
def step (s : State) : Host.Outcome State Fault Refusal := transact s

/-- The state with the instruction of an opcode-table word where the next step fetches it. It stands for the host's
load (R231, notes/assumptions/14.md). -/
def State.withFetchWord (s : State) (nbits w : Nat) : State := placeOpcode (tableWord nbits w) s

end Sys2Proof.Machine
end

