-- ==== Sys2Proof/Safety.lean ====
section
/-! DEFINITION. What claims about runs are stated in: the legal states, how a run ends, and what it means that only
some part of the state changes. -/

namespace Sys2Proof.Machine

/-- Every live stack entry is an address an opcode was fetched from, so at most 0xFFE (R15). -/
def State.stackLegal (s : State) : Bool :=
  decide (∀ k : Fin 16, k.val < s.sp.toNat → (s.stack[k.val]).toNat ≤ 0xFFE)

/-- The fault record of a FAULTED core names a cause and the `PC` the core stopped at (R206, R207). -/
def State.recordLegal (s : State) : Bool :=
  match s.status with
  | .faulted => decide (s.fcause ≠ .none) && decide (s.fpc = s.pc)
  | .running => true
  | .exited => true

/-- A CPU tick that waits for a key is one of a RUNNING core, whose `PC` is the address of its `Fx0A` (R154). -/
def State.waitLegal (s : State) : Bool :=
  match s.waiting with
  | none => true
  | some x => decide (s.status = .running) && decide (s.fetchOpcode = some (encode (.ldVxK x)))

/-- The legal states: memory in its canonical form, `SP` 0..16 (R15), `PC` at most 0x10FE (R13), the stack entries,
the fault record and the wait as above. -/
structure State.Legal (s : State) : Prop where
  mem    : Memory.wf s.mem = true
  sp     : s.sp.toNat ≤ 16
  pc     : s.pc.toNat ≤ 0x10FE
  stack  : s.stackLegal = true
  record : s.recordLegal = true
  wait   : s.waitLegal = true

/-- The next step is a CPU tick that starts: no tick is waiting for a key, and the host's next transaction is one. -/
def State.ticksNext (s : State) : Prop := s.waiting = none ∧ s.host.take.1 = .cpuTick

/-- The state a transaction acts on: the host has taken it off its schedule. -/
def State.taken (s : State) : State := s.setHost s.host.take.2

/-- `STATUS = EXITED` is the only successful end of a run (R241). -/
def State.finished (s : State) : Prop := s.status = .exited

/-- Nothing but the general registers and `PC` differs. -/
def OnlyRegsPc (s t : State) : Prop := t = { s with v := t.v, pc := t.pc }

/-- Nothing but `PC` differs. -/
def OnlyPc (s t : State) : Prop := t = { s with pc := t.pc }

/-- Nothing but `I` and `PC` differs. -/
def OnlyIndexPc (s t : State) : Prop := t = { s with i := t.i, pc := t.pc }

/-- Nothing but the display and `PC` differs. -/
def OnlyDisplayPc (s t : State) : Prop := t = { s with disp := t.disp, pc := t.pc }

/-- Nothing but the general registers, the display and `PC` differs. -/
def OnlyRegsDisplayPc (s t : State) : Prop := t = { s with v := t.v, disp := t.disp, pc := t.pc }

/-- Nothing but memory and `PC` differs. -/
def OnlyMemPc (s t : State) : Prop := t = { s with mem := t.mem, pc := t.pc }

/-- Every general register but `x` holds what it held. -/
def RegsExcept (x : RegIdx) (s t : State) : Prop := ∀ r : RegIdx, r ≠ x → t.getV r = s.getV r

/-- Every byte of memory reads as before. -/
def SameMemory (s t : State) : Prop := ∀ a : Nat, Memory.read t.mem a = Memory.read s.mem a

/-- What an address holds once `n` bytes have been stored from `I` up, the byte at `I + k` being `f k`. -/
def State.overlaid (s : State) (n : Nat) (f : Nat → Byte) (a : Nat) : Byte :=
  if s.i.toNat ≤ a ∧ a < s.i.toNat + n then f (a - s.i.toNat) else Memory.read s.mem a

/-- The opcode at an address of a memory given as a function: the byte there is the high one (R44). -/
def opcodeOver (byte : Nat → Byte) (a : Nat) : Word := opcodeOfBytes (byte a) (byte (a + 1))

/-- Decimal digit `k` of a number below 1000, the hundreds first (R164). -/
def decimalDigit (v : Nat) : Nat → Nat
  | 0 => v / 100
  | 1 => v / 10 % 10
  | _ => v % 10

/-- The fault record of `t` is that of cause `c`, opcode `op` and the `PC` of `s`, and nothing else of `s` has
changed (R206, R207). -/
def FaultedFrom (c : FaultCause) (op : Word) (s t : State) : Prop :=
  t = { s with status := .faulted, fcause := c, fopcode := op, fpc := s.pc }

/-! ### Vocabulary of claims about instructions -/

/-- Row `r` of the buffer, `r` taken modulo 64 (R80). -/
def Display.row (d : Display) (r : Nat) : Row := d.fb[r % 64]'(Nat.mod_lt _ (by decide))

/-- `STACK[k]`, `k` in 1..16 (R15). -/
def State.slot (s : State) (k : Nat) : Addr := s.stack[(k - 1) % 16]'(Nat.mod_lt _ (by decide))

/-- The reserved encodings as the table of R66 lists them, on the opcode as a number: the family is the top nibble,
`N` the low nibble, `kk` the low byte. -/
def reservedWord (op : Word) : Bool :=
  let fam := op.toNat / 0x1000
  let kk := op.toNat % 0x100
  let n := op.toNat % 0x10
  if fam = 0x0 then
    !(decide (0x00C0 ≤ op.toNat ∧ op.toNat ≤ 0x00CF) ||
      [0x00E0, 0x00EE, 0x00FB, 0x00FC, 0x00FD, 0x00FE, 0x00FF].contains op.toNat)
  else if fam = 0x5 then n != 0
  else if fam = 0x8 then [0x8, 0x9, 0xA, 0xB, 0xC, 0xD, 0xF].contains n
  else if fam = 0x9 then n != 0
  else if fam = 0xE then !([0x9E, 0xA1].contains kk)
  else if fam = 0xF then !([0x07, 0x0A, 0x15, 0x18, 0x1E, 0x29, 0x30, 0x33, 0x55, 0x65].contains kk)
  else false

/-- The pixel of the buffer at column `c`, row `r` (R80). -/
def Display.dot (d : Display) (c : Fin 128) (r : Fin 64) : Bool := pixel d.fb[r.val] c.val

/-- Whether a sprite drawn at `(px, py)` covers the buffer pixel at column `c`, row `r`, said pixel by pixel and
without the `write` primitive (R140, R82): `dx` and `dy` are how far right of and below the sprite's corner the pixel
lies, round the edges, in the coordinates of the mode. Bit 7 of a byte is its leftmost pixel. -/
def spriteCovers (m : Mode) (big : Bool) (px py : Nat) (bytes : List Byte) (c r : Nat) : Bool :=
  match m with
  | .high =>
    let dx := (c + 128 - px % 128) % 128
    let dy := (r + 64 - py % 64) % 64
    if big then
      decide (dx < 16) && decide (dy < 16) && (bytes.getD (2 * dy + dx / 8) 0#8).getLsbD (7 - dx % 8)
    else decide (dx < 8) && decide (dy < bytes.length) && (bytes.getD dy 0#8).getLsbD (7 - dx)
  | .low =>
    let dx := (c / 2 + 64 - px % 64) % 64
    let dy := (r / 2 + 32 - py % 32) % 32
    decide (dx < 8) && decide (dy < bytes.length) && (bytes.getD dy 0#8).getLsbD (7 - dx)

/-- The instructions that write `VF`, as the flag or as the destination `Vx` (R11). -/
def writesVf : Instr → Bool
  | .addReg _ _ | .subReg _ _ | .shrReg _ _ | .subnReg _ _ | .shlReg _ _ | .drw _ _ _ => true
  | .ldImm x _ | .addImm x _ | .ldReg x _ | .orReg x _ | .andReg x _ | .xorReg x _ | .rnd x _ => x == vf
  | .ldVxDt x | .ldVxK x | .ldBlock x => x == vf
  | .scd _ | .cls | .ret | .scr | .scl | .exit | .low | .high | .jp _ | .call _ | .seImm _ _ | .sneImm _ _ => false
  | .seReg _ _ | .sneReg _ _ | .ldI _ | .jpV0 _ | .skp _ | .sknp _ | .ldDtVx _ | .ldStVx _ | .addI _ => false
  | .ldF _ | .ldHf _ | .ldB _ | .stBlock _ => false

/-- The instructions that may change the buffer or the dirty flag (R22, R82 to R86). -/
def writesBuffer : Instr → Bool
  | .scd _ | .cls | .scr | .scl | .drw _ _ _ => true
  | .ret | .exit | .low | .high | .jp _ | .call _ | .seImm _ _ | .sneImm _ _ | .seReg _ _ | .sneReg _ _ => false
  | .ldImm _ _ | .addImm _ _ | .ldReg _ _ | .orReg _ _ | .andReg _ _ | .xorReg _ _ | .addReg _ _ => false
  | .subReg _ _ | .shrReg _ _ | .subnReg _ _ | .shlReg _ _ | .ldI _ | .jpV0 _ | .rnd _ _ | .skp _ => false
  | .sknp _ | .ldVxDt _ | .ldVxK _ | .ldDtVx _ | .ldStVx _ | .addI _ | .ldF _ | .ldHf _ | .ldB _ => false
  | .stBlock _ | .ldBlock _ => false

/-- The fault the execute stage of an instruction raises, by the conditions of R203 to R205, read off the state before
it; none where it raises none. -/
def executeFault : Instr → State → Option FaultCause
  | .call _, s => if s.sp = 16#5 then some .stackOverflow else none
  | .ret, s => if s.sp = 0#5 then some .stackUnderflow else none
  | .drw _ _ n, s =>
    let len := if n = 0#4 ∧ s.disp.mode = .high then 32 else n.toNat
    if 0 < len ∧ 0xFFF < s.i.toNat + len - 1 then some .addressFault else none
  | .ldB _, s => if 0xFFF < s.i.toNat + 2 then some .addressFault else none
  | .stBlock x, s => if 0xFFF < s.i.toNat + x.toNat then some .addressFault else none
  | .ldBlock x, s => if 0xFFF < s.i.toNat + x.toNat then some .addressFault else none
  | .scd _, _ | .cls, _ | .scr, _ | .scl, _ | .exit, _ | .low, _ | .high, _ | .jp _, _ => none
  | .seImm _ _, _ | .sneImm _ _, _ | .seReg _ _, _ | .sneReg _ _, _ | .ldImm _ _, _ | .addImm _ _, _ => none
  | .ldReg _ _, _ | .orReg _ _, _ | .andReg _ _, _ | .xorReg _ _, _ | .addReg _ _, _ | .subReg _ _, _ => none
  | .shrReg _ _, _ | .subnReg _ _, _ | .shlReg _ _, _ | .ldI _, _ | .jpV0 _, _ | .rnd _ _, _ | .skp _, _ => none
  | .sknp _, _ | .ldVxDt _, _ | .ldVxK _, _ | .ldDtVx _, _ | .ldStVx _, _ | .addI _, _ | .ldF _, _ => none
  | .ldHf _, _ => none

end Sys2Proof.Machine
end

