-- ==== Sys2Proof/Certificates/Slice0/Obligations.lean ====
section
/-! DEFINITION. The statements for the provers. Each docstring names the rules of spec/ it formalises. -/

open Sys2Proof Sys2Proof.Machine

/-! ### Encoding (30_encoding.md) -/

/-- R62, R63, R65: decoding the encoding of any instruction gives it back, as a word and as two bytes before any
others. -/
def Obligations.EncodingDecodesBack : Prop :=
  ∀ i : Instr, i.wf = true →
    decode (encode i) = some i ∧ ∀ rest, (decodeBytes (encodeBytes i ++ rest)).toOption = some (i, rest)

/-- R62: a word that decodes is the one encoding of its instruction, so no bit of it was dropped. -/
def Obligations.DecodedWordEncodesBack : Prop :=
  ∀ (op : Word) (i : Instr), decode op = some i → encode i = op

/-- R65: an opcode selects the instruction of a row exactly when `opcode AND mask = match`, and no two rows overlap. -/
def Obligations.DecodeFollowsOpcodeMap : Prop :=
  (∀ (op : Word) (r : OpcodeRow), r ∈ opcodeTable →
    (op &&& r.mask = r.value ↔ ∃ i, decode op = some i ∧ i.row = r.num)) ∧
  ∀ (op : Word) (r q : OpcodeRow), r ∈ opcodeTable → q ∈ opcodeTable →
    op &&& r.mask = r.value → op &&& q.mask = q.value → r = q

/-- R66, R202, with the spec's decisions D6, D15 and D16 (log 13) and the schedule of log 1 (a fault is a next state:
log 5; its info: log 16): the words that decode to nothing are exactly those of the table of reserved encodings, and a
CPU tick that fetches one raises DecodeFault with that opcode and changes nothing else. -/
def Obligations.ReservedWordsRaiseDecodeFault : Prop :=
  (∀ op : Word, decode op = none ↔ reservedWord op = true) ∧
  ∀ (s : State) (op : Word), s.ticksNext → s.status = .running → s.fetchOpcode = some op → reservedWord op = true →
    ∃ t, step s = .next t ∧ FaultedFrom .decodeFault op s.taken t ∧ t.faultInfo = some op.toNat

/-- The seven words of section 2.9 of 95_test_vectors.md decode as listed there. -/
def Obligations.ListedWordsDecode : Prop :=
  decode 0x00C5#16 = some (.scd 5#4) ∧ decode 0x6A3C#16 = some (.ldImm 0xA#4 0x3C#8) ∧
  decode 0x8AB6#16 = some (.shrReg 0xA#4 0xB#4) ∧ decode 0xD5C7#16 = some (.drw 5#4 0xC#4 7#4) ∧
  decode 0xFE65#16 = some (.ldBlock 0xE#4) ∧ decode 0xBF00#16 = some (.jpV0 0xF00#12) ∧
  decode 0xE19E#16 = some (.skp 1#4)

/-! ### The instruction cycle and faults (30_encoding.md, 60_exceptions.md) -/

/-- R69, R44, with the schedule of log 1: when a CPU tick is next in a RUNNING core and the two bytes at PC, the one at
the lower address first, decode to an instruction, the step is that instruction's meaning on the state the
transaction acts on, which is the state itself when the host lists no transaction. -/
def Obligations.StepRunsTheDecodedInstruction : Prop :=
  ∀ (s : State) (i : Instr), s.ticksNext → s.status = .running → s.pc.toNat ≤ 0xFFE →
    (decode (opcodeOfBytes (Memory.read s.mem s.pc.toNat) (Memory.read s.mem (s.pc.toNat + 1))) = some i →
      step s = exec i s.taken) ∧
    (Memory.readList s.mem s.pc.toNat 2 = encodeBytes i → step s = exec i s.taken) ∧
    (s.host.schedule = [] → s.taken = s)

/-- R4, R216, with the schedule of log 1: a step in which no tick waits for a key is one whole transaction, the first
the host lists, on the state with that one taken off the list; with none listed it is a CPU tick. -/
def Obligations.StepPerformsTheHostsNextTransaction : Prop :=
  ∀ s : State, s.waiting = none →
    (∀ r rest, s.host.schedule = r :: rest → step s = perform r { s with host := { s.host with schedule := rest } }) ∧
    (s.host.schedule = [] → step s = cpuTick s)

/-- R61, with the spec's decisions D5 and D16 (log 13) and the schedule of log 1 (a fault is a next state: log 5; its
info: log 16): the fetch reads the big-endian opcode of the bytes at PC and PC + 1 at any PC up to 0xFFE, odd or even;
above it the tick raises AddressFault(pc0) with FOPCODE 0. -/
def Obligations.FetchReadsBigEndianOrFaults : Prop :=
  (∀ s : State, s.pc.toNat ≤ 0xFFE → ∃ op, s.fetchOpcode = some op ∧
    op.toNat = 256 * (Memory.read s.mem s.pc.toNat).toNat + (Memory.read s.mem (s.pc.toNat + 1)).toNat) ∧
  ∀ s : State, s.ticksNext → s.status = .running → 0xFFE < s.pc.toNat →
    ∃ t, step s = .next t ∧ FaultedFrom .addressFault 0#16 s.taken t ∧ t.faultInfo = some s.pc.toNat

/-- R211, with the spec's decision D15 (log 13) and the schedule of log 1 (what a tick reports: log 20): while the
core is stopped a CPU tick changes nothing and reports the same outcome, timer ticks and display reads still work, and
only load and reset bring RUNNING back. -/
def Obligations.StoppedCoreIgnoresCpuTicks : Prop :=
  ∀ s : State, s.status ≠ .running → s.waiting = none →
    (s.host.take.1 = .cpuTick → step s = .next s.taken ∧ s.taken.tickReport = s.tickReport) ∧
    (s.host.take.1 = .timerTick → ∃ t, step s = .next t ∧ t = { s.taken with dt := t.dt, st := t.st } ∧
      t.dt.toNat = s.dt.toNat - 1 ∧ t.st.toNat = s.st.toNat - 1) ∧
    (s.host.take.1 = .read → step s = .next { s.taken with disp := { s.disp with dirty := false } }) ∧
    (∀ x y, s.host.take.1 = .readPx x y → x < 128 → y < 64 →
      step s = .next { s.taken with disp := { s.disp with dirty := false } }) ∧
    ∀ t, step s = .next t → t.status = .running →
      s.host.take.1 = .reset ∨ ∃ base program font, s.host.take.1 = .load base program font

/-- R13, R15, R19, R206, with the spec's decisions D1, D3, D15 (log 13) and the model's fields of log 1 and log 4 (a
fault is a next state: log 5): every step from a legal state gives a legal state: memory stays canonical, SP 0..16, PC
at most 0x10FE, live stack entries at most 0xFFE, the fault record that of the stop, a wait that of the Fx0A at PC. -/
def Obligations.EveryStepKeepsLegal : Prop :=
  ∀ s t : State, s.Legal → step s = .next t → t.Legal

/-- The reset state, whose values are the spec's decision D14 (log 8) and log 22, is legal. -/
def Obligations.ResetIsLegal : Prop := State.reset.Legal

/-- R24, R66, R200, R88, R232, with the spec's decisions D25 and D28 (log 12, log 13), the schedule of log 1, the
stall of log 4, and a fault of R201 being a next state (log 5): from a legal state every step answers a next state,
whatever the bytes at PC, unless the host's next transaction is one the spec gives no move, which is refused. -/
def Obligations.LegalStatesAlwaysStep : Prop :=
  ∀ s : State, s.Legal →
    (s.waiting.isSome ∨ s.host.take.1.wf = true → ∃ t, step s = .next t) ∧
    (s.waiting = none → s.host.take.1.wf = false → step s = .refused .loadRefused ∨ step s = .refused .pixelOutOfRange)

/-- R206, R207, with the spec's decisions D15 and D16 (log 13) and the schedule of log 1 (a fault is a next state: log
5): a CPU tick that ends FAULT has set STATUS, FCAUSE, FOPCODE (the fetched opcode, or 0) and FPC, and nothing else:
registers, I, PC, SP, stack, timers, memory, display are as before and no capability was called. -/
def Obligations.FaultsArePrecise : Prop :=
  ∀ s t : State, s.ticksNext → s.status = .running → step s = .next t → t.status = .faulted →
    ∃ c op, c ≠ .none ∧ op = s.fetchOpcode.getD 0#16 ∧ FaultedFrom c op s.taken t

/-- R203, R204, R205, with the spec's decisions D4, D5, D16 (log 13; a fault is a next state: log 5; its opcode: log
7): an instruction raises a fault in its execute stage exactly under the conditions of these rules, and then the fault
is the one named, with the instruction's opcode; the fetch faults exactly when PC > 0xFFE. -/
def Obligations.ExecuteFaultsExactlyWhenStated : Prop :=
  (∀ (i : Instr) (s : State) (c : FaultCause), executeFault i s = some c →
    ∃ t, exec i s = .next t ∧ FaultedFrom c (encode i) s t) ∧
  (∀ (i : Instr) (s t : State), s.status = .running → executeFault i s = none → exec i s = .next t →
    t.status ≠ .faulted) ∧
  ∀ s : State, s.fetchOpcode = none ↔ 0xFFE < s.pc.toNat

/-- R200, R212, with the spec's decision D15 (log 13): in a RUNNING core only EXIT makes STATUS EXITED. -/
def Obligations.OnlyExitExits : Prop :=
  ∀ (i : Instr) (s t : State), s.status = .running → exec i s = .next t → (t.status = .exited ↔ i = .exit)

/-! ### Which instructions write which state (10_state.md) -/

/-- R11, with the spec's decision D32 (log 13): an instruction that neither produces a flag nor names VF as its
destination leaves VF as it was. -/
def Obligations.OnlyFlagWritersChangeVf : Prop :=
  ∀ (i : Instr) (s t : State), writesVf i = false → exec i s = .next t → t.getV vf = s.getV vf

/-- R18: DT is written only by Fx15 and ST only by Fx18 (which is which: log 10); no other instruction changes a
timer. -/
def Obligations.OnlyTimerWritersChangeTimers : Prop :=
  ∀ (i : Instr) (s t : State), exec i s = .next t →
    ((∀ x, i ≠ .ldDtVx x) → t.dt = s.dt) ∧ ((∀ x, i ≠ .ldStVx x) → t.st = s.st)

/-- R19: memory is written only by Fx33 and Fx55. -/
def Obligations.OnlyStoresChangeMemory : Prop :=
  ∀ (i : Instr) (s t : State), (∀ x, i ≠ .ldB x) → (∀ x, i ≠ .stBlock x) → exec i s = .next t → SameMemory s t

/-- R15, with the spec's decision D3 (log 13): only CALL and RET use the stack and SP. -/
def Obligations.OnlyCallAndRetChangeStack : Prop :=
  ∀ (i : Instr) (s t : State), (∀ nnn, i ≠ .call nnn) → i ≠ .ret → exec i s = .next t →
    t.sp = s.sp ∧ t.stack = s.stack

/-- R20, R21, R22, with the spec's decision D13 (log 13): only LOW and HIGH change MODE, and only the scrolls, CLS and
DRW change the buffer or DIRTY. -/
def Obligations.OnlyDisplayInstructionsChangeDisplay : Prop :=
  ∀ (i : Instr) (s t : State), exec i s = .next t →
    (i ≠ .low → i ≠ .high → t.disp.mode = s.disp.mode) ∧
    (writesBuffer i = false → t.disp.fb = s.disp.fb ∧ t.disp.dirty = s.disp.dirty)

/-! ### Family 0 (41_family0_system.md) -/

/-- R84, R100, with the spec's decisions D13 and D30 (log 13): SCD n rotates the rows down by n, then zeroes rows 0 and
1, sets DIRTY and changes nothing else. -/
def Obligations.ScdRotatesThenZeroesTwoRows : Prop :=
  ∀ (n : BitVec 4) (s : State), ∃ t, exec (.scd n) s = .next t ∧ OnlyDisplayPc s t ∧ t.pc = s.pc + 2#16 ∧
    t.disp.dirty = true ∧ t.disp.mode = s.disp.mode ∧
    ∀ r, r < 64 → t.disp.row (r + n.toNat) = if (r + n.toNat) % 64 < 2 then 0#128 else s.disp.row r

/-- R86, R101: CLS zeroes every row, sets DIRTY, keeps MODE and changes nothing else. -/
def Obligations.ClsClearsEveryRow : Prop :=
  ∀ s : State, ∃ t, exec .cls s = .next t ∧ OnlyDisplayPc s t ∧ t.pc = s.pc + 2#16 ∧ t.disp.dirty = true ∧
    t.disp.mode = s.disp.mode ∧ ∀ r, t.disp.row r = 0#128

/-- R17, R102, with the spec's decisions D3, D4, D15 (log 13; a fault is a next state: log 5): RET pops the top entry
and goes to it plus 2, leaving the slots; with an empty stack it raises StackUnderflow and changes nothing else. -/
def Obligations.RetPopsAndAddsTwo : Prop :=
  (∀ s : State, 0 < s.sp.toNat → s.sp.toNat ≤ 16 → ∃ t, exec .ret s = .next t ∧
    t = { s with sp := t.sp, pc := t.pc } ∧ t.sp.toNat = s.sp.toNat - 1 ∧
    t.pc.toNat = (s.slot s.sp.toNat).toNat + 2) ∧
  ∀ s : State, s.sp = 0#5 → ∃ t, exec .ret s = .next t ∧ FaultedFrom .stackUnderflow 0x00EE#16 s t

/-- R85, R103, R104, with the spec's decisions D8, D13, D30 (log 13): SCR moves every pixel 4 columns right and SCL 4
columns left, round the edge of its row; both set DIRTY and change nothing else. -/
def Obligations.SideScrollsRotateFourColumns : Prop :=
  ∀ s : State,
    (∃ t, exec .scr s = .next t ∧ OnlyDisplayPc s t ∧ t.pc = s.pc + 2#16 ∧ t.disp.dirty = true ∧
      t.disp.mode = s.disp.mode ∧ ∀ c r, t.disp.dot (c + 4) r = s.disp.dot c r) ∧
    ∃ t, exec .scl s = .next t ∧ OnlyDisplayPc s t ∧ t.pc = s.pc + 2#16 ∧ t.disp.dirty = true ∧
      t.disp.mode = s.disp.mode ∧ ∀ c r, t.disp.dot c r = s.disp.dot (c + 4) r

/-- R85, R104: SCR then SCL restores every row; so does SCL then SCR. -/
def Obligations.SideScrollsUndoEachOther : Prop :=
  ∀ s t u : State,
    (exec .scr s = .next t → exec .scl t = .next u → u.disp.fb = s.disp.fb) ∧
    (exec .scl s = .next t → exec .scr t = .next u → u.disp.fb = s.disp.fb)

/-- R105, R212, with the spec's decision D15 (log 13; what a tick reports: log 20): EXIT sets STATUS to EXITED, keeps
PC and everything else, and the tick reports EXIT. -/
def Obligations.ExitSetsStatusOnly : Prop :=
  ∀ s : State, ∃ t, exec .exit s = .next t ∧ t = { s with status := .exited } ∧
    (s.waiting = none → t.tickReport = some .exit)

/-- R89, R106, R107, with the spec's decision D13 (log 13): LOW and HIGH set MODE and change neither the buffer nor
DIRTY nor anything else. -/
def Obligations.ModeSwitchesKeepBufferAndDirty : Prop :=
  ∀ s : State,
    (∃ t, exec .low s = .next t ∧ OnlyDisplayPc s t ∧ t.pc = s.pc + 2#16 ∧ t.disp.mode = .low ∧
      t.disp.fb = s.disp.fb ∧ t.disp.dirty = s.disp.dirty) ∧
    ∃ t, exec .high s = .next t ∧ OnlyDisplayPc s t ∧ t.pc = s.pc + 2#16 ∧ t.disp.mode = .high ∧
      t.disp.fb = s.disp.fb ∧ t.disp.dirty = s.disp.dirty

/-! ### Control flow (42_control_flow.md) -/

/-- R110: JP goes to nnn and changes nothing else. -/
def Obligations.JumpGoesToItsTarget : Prop :=
  ∀ (nnn : Addr) (s : State), ∃ t, exec (.jp nnn) s = .next t ∧ OnlyPc s t ∧ t.pc.toNat = nnn.toNat

/-- R116, whose sum without a wrap is the spec's decision D1 (log 13): JP V0 goes to nnn + V0, exact and not reduced,
and changes nothing else. -/
def Obligations.OffsetJumpIsExact : Prop :=
  ∀ (nnn : Addr) (s : State), ∃ t, exec (.jpV0 nnn) s = .next t ∧ OnlyPc s t ∧
    t.pc.toNat = nnn.toNat + (s.getV 0#4).toNat

/-- R16, R111, with the spec's decisions D3, D4, D15 (log 13; a fault is a next state: log 5): CALL pushes the low 12
bits of its own address on the next slot and goes to nnn; with 16 frames live it raises StackOverflow and changes
nothing else. -/
def Obligations.CallPushesItsOwnAddress : Prop :=
  (∀ (nnn : Addr) (s : State), s.sp.toNat < 16 → ∃ t, exec (.call nnn) s = .next t ∧
    t = { s with sp := t.sp, stack := t.stack, pc := t.pc } ∧ t.sp.toNat = s.sp.toNat + 1 ∧
    (t.slot (s.sp.toNat + 1)).toNat = s.pc.toNat % 4096 ∧
    (∀ k, 1 ≤ k → k ≤ 16 → k ≠ s.sp.toNat + 1 → t.slot k = s.slot k) ∧ t.pc.toNat = nnn.toNat) ∧
  ∀ (nnn : Addr) (s : State), s.sp = 16#5 →
    ∃ t, exec (.call nnn) s = .next t ∧ FaultedFrom .stackOverflow (encode (.call nnn)) s t

/-- R102, R111, with the spec's decision D3 (log 13), and example X7: a RET in a callee that has left the stack as the
CALL made it leads to the instruction after the CALL. -/
def Obligations.ReturnGoesAfterTheCall : Prop :=
  ∀ (nnn : Addr) (s : State), s.sp.toNat < 16 → s.pc.toNat ≤ 0xFFE →
    ∃ t, exec (.call nnn) s = .next t ∧
      ∀ t' : State, t'.sp = t.sp → t'.stack = t.stack →
        ∃ u, exec .ret t' = .next u ∧ u.pc.toNat = s.pc.toNat + 2 ∧ u.sp = s.sp

/-- R112 to R115, whose conditions the spec takes from general knowledge (log 10): the four register skips compare
and write PC only. -/
def Obligations.SkipsCompareAndWritePcOnly : Prop :=
  (∀ (x : RegIdx) (kk : Byte) (s : State),
    (∃ t, exec (.seImm x kk) s = .next t ∧ OnlyPc s t ∧
      (s.getV x = kk → t.pc = s.pc + 4#16) ∧ (s.getV x ≠ kk → t.pc = s.pc + 2#16)) ∧
    ∃ t, exec (.sneImm x kk) s = .next t ∧ OnlyPc s t ∧
      (s.getV x ≠ kk → t.pc = s.pc + 4#16) ∧ (s.getV x = kk → t.pc = s.pc + 2#16)) ∧
  ∀ (x y : RegIdx) (s : State),
    (∃ t, exec (.seReg x y) s = .next t ∧ OnlyPc s t ∧
      (s.getV x = s.getV y → t.pc = s.pc + 4#16) ∧ (s.getV x ≠ s.getV y → t.pc = s.pc + 2#16)) ∧
    ∃ t, exec (.sneReg x y) s = .next t ∧ OnlyPc s t ∧
      (s.getV x ≠ s.getV y → t.pc = s.pc + 4#16) ∧ (s.getV x = s.getV y → t.pc = s.pc + 2#16)

/-! ### Loads and arithmetic (43_alu.md) -/

/-- R120, R121, R122: LD Vx, kk, ADD Vx, kk and LD Vx, Vy write Vx and PC only, VF as any other; the addition wraps
modulo 256 and has no flag effect. -/
def Obligations.LoadsAndAddImmediate : Prop :=
  ∀ (x y : RegIdx) (kk : Byte) (s : State),
    (∃ t, exec (.ldImm x kk) s = .next t ∧ OnlyRegsPc s t ∧ t.pc = s.pc + 2#16 ∧ RegsExcept x s t ∧
      t.getV x = kk) ∧
    (∃ t, exec (.addImm x kk) s = .next t ∧ OnlyRegsPc s t ∧ t.pc = s.pc + 2#16 ∧ RegsExcept x s t ∧
      (t.getV x).toNat = ((s.getV x).toNat + kk.toNat) % 256) ∧
    ∃ t, exec (.ldReg x y) s = .next t ∧ OnlyRegsPc s t ∧ t.pc = s.pc + 2#16 ∧ RegsExcept x s t ∧
      t.getV x = s.getV y

/-- R123 to R125, whose VF unchanged is the spec's decision D32 (log 13): OR, AND, XOR Vx, Vy write Vx and PC only. -/
def Obligations.LogicWritesOnlyVx : Prop :=
  ∀ (x y : RegIdx) (s : State),
    (∃ t, exec (.orReg x y) s = .next t ∧ OnlyRegsPc s t ∧ t.pc = s.pc + 2#16 ∧ RegsExcept x s t ∧
      ∀ k, (t.getV x).getLsbD k = ((s.getV x).getLsbD k || (s.getV y).getLsbD k)) ∧
    (∃ t, exec (.andReg x y) s = .next t ∧ OnlyRegsPc s t ∧ t.pc = s.pc + 2#16 ∧ RegsExcept x s t ∧
      ∀ k, (t.getV x).getLsbD k = ((s.getV x).getLsbD k && (s.getV y).getLsbD k)) ∧
    ∃ t, exec (.xorReg x y) s = .next t ∧ OnlyRegsPc s t ∧ t.pc = s.pc + 2#16 ∧ RegsExcept x s t ∧
      ∀ k, (t.getV x).getLsbD k = ((s.getV x).getLsbD k != (s.getV y).getLsbD k)

/-- R126, and R12 with the spec's decision D12 (log 13): ADD Vx, Vy: the sum modulo 256 in Vx, then the carry in VF;
with x = F VF ends as the carry. -/
def Obligations.AddWritesSumThenCarry : Prop :=
  ∀ (x y : RegIdx) (s : State), ∃ t, exec (.addReg x y) s = .next t ∧ OnlyRegsPc s t ∧ t.pc = s.pc + 2#16 ∧
    (∀ r, r ≠ x → r ≠ vf → t.getV r = s.getV r) ∧
    (x ≠ vf → (t.getV x).toNat = ((s.getV x).toNat + (s.getV y).toNat) % 256) ∧
    (t.getV vf).toNat = if (s.getV x).toNat + (s.getV y).toNat > 255 then 1 else 0

/-- R127, R129, and R12 with the spec's decision D12 (log 13): SUB and SUBN: the difference modulo 256 in Vx, then NOT
borrow in VF. -/
def Obligations.SubtractionsWriteDifferenceThenNotBorrow : Prop :=
  ∀ (x y : RegIdx) (s : State),
    (∃ t, exec (.subReg x y) s = .next t ∧ OnlyRegsPc s t ∧ t.pc = s.pc + 2#16 ∧
      (∀ r, r ≠ x → r ≠ vf → t.getV r = s.getV r) ∧
      (x ≠ vf → (t.getV x).toNat = ((s.getV x).toNat + 256 - (s.getV y).toNat) % 256) ∧
      (t.getV vf).toNat = if (s.getV x).toNat ≥ (s.getV y).toNat then 1 else 0) ∧
    ∃ t, exec (.subnReg x y) s = .next t ∧ OnlyRegsPc s t ∧ t.pc = s.pc + 2#16 ∧
      (∀ r, r ≠ x → r ≠ vf → t.getV r = s.getV r) ∧
      (x ≠ vf → (t.getV x).toNat = ((s.getV y).toNat + 256 - (s.getV x).toNat) % 256) ∧
      (t.getV vf).toNat = if (s.getV y).toNat ≥ (s.getV x).toNat then 1 else 0

/-- R128, R130, and R12 with the spec's decision D12 (log 13): SHR and SHL shift Vy, not the old Vx, by one into Vx,
then put the bit shifted out in VF. -/
def Obligations.ShiftsReadVyAndKeepTheBitShiftedOut : Prop :=
  ∀ (x y : RegIdx) (s : State),
    (∃ t, exec (.shrReg x y) s = .next t ∧ OnlyRegsPc s t ∧ t.pc = s.pc + 2#16 ∧
      (∀ r, r ≠ x → r ≠ vf → t.getV r = s.getV r) ∧
      (x ≠ vf → (t.getV x).toNat = (s.getV y).toNat / 2) ∧ (t.getV vf).toNat = (s.getV y).toNat % 2) ∧
    ∃ t, exec (.shlReg x y) s = .next t ∧ OnlyRegsPc s t ∧ t.pc = s.pc + 2#16 ∧
      (∀ r, r ≠ x → r ≠ vf → t.getV r = s.getV r) ∧
      (x ≠ vf → (t.getV x).toNat = (s.getV y).toNat * 2 % 256) ∧ (t.getV vf).toNat = (s.getV y).toNat / 128

/-! ### Draw (44_draw.md, 40_display_engine.md) -/

/-- R140, R82, with the spec's decisions D8, D9, D12, D23, D31 (log 13): where the sprite lies inside memory, DRW XORs
into the buffer exactly the pixels the sprite covers; VF says whether a set pixel was covered (so erased); DIRTY is set
unless there is no sprite byte; nothing else changes. -/
def Obligations.DrawXorsTheCoveredPixels : Prop :=
  ∀ (x y : RegIdx) (n : BitVec 4) (s : State) (big : Bool) (len : Nat),
    (big = true ↔ n = 0#4 ∧ s.disp.mode = .high) → len = (if big then 32 else n.toNat) →
    (len = 0 ∨ s.i.toNat + len - 1 ≤ 0xFFF) →
    ∃ t, exec (.drw x y n) s = .next t ∧ OnlyRegsDisplayPc s t ∧ t.pc = s.pc + 2#16 ∧ RegsExcept vf s t ∧
      t.disp.mode = s.disp.mode ∧ (t.disp.dirty = true ↔ s.disp.dirty = true ∨ 0 < len) ∧
      (∀ (c : Fin 128) (r : Fin 64), t.disp.dot c r = (s.disp.dot c r ^^
        spriteCovers s.disp.mode big (s.getV x).toNat (s.getV y).toNat (Memory.readList s.mem s.i.toNat len) c r)) ∧
      (t.getV vf = 1#8 ∨ t.getV vf = 0#8) ∧
      (t.getV vf = 1#8 ↔ ∃ (c : Fin 128) (r : Fin 64), s.disp.dot c r = true ∧ t.disp.dot c r = false)

/-- R140, R205, with the spec's decision D5 (log 13; a fault is a next state: log 5; its info: log 16): a sprite that
would extend past address 0xFFF raises AddressFault at I; nothing is drawn and nothing else changes. -/
def Obligations.DrawPastMemoryFaults : Prop :=
  ∀ (x y : RegIdx) (n : BitVec 4) (s : State) (len : Nat),
    len = (if n = 0#4 ∧ s.disp.mode = .high then 32 else n.toNat) → 0 < len → 0xFFF < s.i.toNat + len - 1 →
    ∃ t, exec (.drw x y n) s = .next t ∧ FaultedFrom .addressFault (encode (.drw x y n)) s t ∧
      (s.pc.toNat ≤ 0xFFE → t.faultInfo = some s.i.toNat)

/-- R83: `write` reports erasure exactly when a pixel that was set is cleared; writing the same byte at the same
position twice restores the buffer; a nonzero byte written over pixels that are all unset reports no erasure, and the
second write of it does. -/
def Obligations.WriteReportsErasureAndUndoesItself : Prop :=
  ∀ (d : Display) (b : Byte) (x y : Nat),
    ((d.writeByte b x y).1 = true ↔
      ∃ (c : Fin 128) (r : Fin 64), d.dot c r = true ∧ (d.writeByte b x y).2.dot c r = false) ∧
    ((d.writeByte b x y).2.writeByte b x y).2.fb = d.fb ∧
    (b ≠ 0#8 → (∀ c r, (d.writeByte b x y).2.dot c r ≠ d.dot c r → d.dot c r = false) →
      (d.writeByte b x y).1 = false ∧ ((d.writeByte b x y).2.writeByte b x y).1 = true)

/-- R81: bit `k` of the byte is bits `2k` and `2k + 1` of the expansion. -/
def Obligations.ExpandDoublesEveryBit : Prop :=
  ∀ (b : Byte) (k : Nat), k < 8 →
    (expand b).getLsbD (2 * k) = b.getLsbD k ∧ (expand b).getLsbD (2 * k + 1) = b.getLsbD k

/-! ### Random, keys and timers (45_keys_timers_random.md, 60_exceptions.md) -/

/-- R150, R219, with the lists of log 2: RND writes the random byte AND kk to Vx, whatever the byte. Exactly one byte
is drawn: the host's next listed answer where it lists one, else one free byte; nothing else changes, and of the
host's side only what the one draw uses. -/
def Obligations.RndMasksTheRandomByte : Prop :=
  ∀ (x : RegIdx) (kk : Byte) (s : State), ∃ (t : State) (b : Byte), exec (.rnd x kk) s = .next t ∧
    t = { s with v := t.v, pc := t.pc, host := t.host } ∧ t.pc = s.pc + 2#16 ∧ RegsExcept x s t ∧
    t.getV x = b &&& kk ∧ (b, t.host) = s.host.randByte ∧
    (∀ c rest, s.host.randBytes = c :: rest → b = c ∧ t.host = { s.host with randBytes := rest }) ∧
    (s.host.randBytes = [] → t.host = { s.host with drawn := s.host.drawn + 1 })

/-- R151, R152, with the spec's decision D19 (log 13) and the lists of log 3: SKP skips when the key of the whole byte
Vx is down and SKNP when it is not. Exactly one query is made: it takes the host's next listed answer where it lists
one, else one free answer; only PC and what the one query uses of the host's side change. -/
def Obligations.KeySkipsFollowTheHostsAnswer : Prop :=
  ∀ (x : RegIdx) (s : State), ∃ (d : Bool) (h : HostSide), (d, h) = s.host.keyState (s.getV x) ∧
    (∀ down rest, s.host.keysDown = down :: rest →
      d = decide (s.getV x ∈ down) ∧ h = { s.host with keysDown := rest }) ∧
    (s.host.keysDown = [] → h = { s.host with drawn := s.host.drawn + 1 }) ∧
    (∃ t, exec (.skp x) s = .next t ∧ t = { s with pc := t.pc, host := h } ∧
      t.pc = if d then s.pc + 4#16 else s.pc + 2#16) ∧
    ∃ t, exec (.sknp x) s = .next t ∧ t = { s with pc := t.pc, host := h } ∧
      t.pc = if d then s.pc + 2#16 else s.pc + 4#16

/-- R153, R155, R156, R215, whose assignment the spec takes from general knowledge (D10, log 10): Fx07 reads DT, Fx15
writes DT, Fx18 writes ST (and so `sound_active`), and nothing else changes. -/
def Obligations.TimerReadsAndWrites : Prop :=
  ∀ (x : RegIdx) (s : State),
    (∃ t, exec (.ldVxDt x) s = .next t ∧ OnlyRegsPc s t ∧ t.pc = s.pc + 2#16 ∧ RegsExcept x s t ∧
      t.getV x = s.dt) ∧
    (∃ t, exec (.ldDtVx x) s = .next t ∧ t = { s with dt := t.dt, pc := t.pc } ∧ t.pc = s.pc + 2#16 ∧
      t.dt = s.getV x) ∧
    ∃ t, exec (.ldStVx x) s = .next t ∧ t = { s with st := t.st, pc := t.pc } ∧ t.pc = s.pc + 2#16 ∧
      t.st = s.getV x ∧ (t.soundActive = true ↔ 0 < (s.getV x).toNat)

/-- R154, with the spec's decision D19 (log 13) and the list of log 4: where the host answers KeyWait with a code,
whichever it is, LD Vx, K writes it to Vx and goes on; the timers and everything else are as before. -/
def Obligations.KeyWaitWritesTheAnswer : Prop :=
  ∀ (x : RegIdx) (s : State) (c : Byte) (h : HostSide), s.host.keyWait = (some c, h) →
    ∃ t, exec (.ldVxK x) s = .next t ∧ t = { s with v := t.v, pc := t.pc, waiting := none, host := h } ∧
      t.pc = s.pc + 2#16 ∧ RegsExcept x s t ∧ t.getV x = c

/-- R216, R218, with the spec's decision D21 (log 13) and the stall field of log 4 (what a tick reports: log 20):
until the host answers, the tick of LD Vx, K stays in progress, reports nothing and leaves the whole core as it was; a
step in that wait takes no transaction off the schedule, so no timer tick; the answer, when it comes, completes the
instruction. -/
def Obligations.KeyWaitSuspendsTheCore : Prop :=
  (∀ (x : RegIdx) (s : State) (h : HostSide), s.host.keyWait = (none, h) →
    ∃ t, exec (.ldVxK x) s = .next t ∧ t = { s with waiting := some x, host := h } ∧ t.tickReport = none) ∧
  ∀ (x : RegIdx) (s : State), s.waiting = some x → ∃ t, step s = .next t ∧
    t.host.schedule = s.host.schedule ∧ t = { s with v := t.v, pc := t.pc, waiting := t.waiting, host := t.host } ∧
    (∀ h, s.host.keyWait = (none, h) → t = { s with host := h }) ∧
    ∀ c h, s.host.keyWait = (some c, h) →
      t.waiting = none ∧ t.getV x = c ∧ RegsExcept x s t ∧ t.pc = s.pc + 2#16

/-- R214, with Fx15 writing DT and Fx18 writing ST (the spec's decision D10, log 10), the stall of log 4 and the reset
values of D14 (log 8): a timer tick decrements both timers with a floor at 0, whatever STATUS is, and changes nothing
else. No other action decrements one: an instruction changes DT only as a write of it by Fx15 and ST only by Fx18, a
CPU tick only by running that instruction, reset sets both to 0, and load, the display reads and a moment of the key
wait leave both. -/
def Obligations.TimerTickDecrementsWithFloor : Prop :=
  (∀ s : State, ∃ t, perform .timerTick s = .next t ∧ t = { s with dt := t.dt, st := t.st } ∧
    t.dt.toNat = s.dt.toNat - 1 ∧ t.st.toNat = s.st.toNat - 1) ∧
  (∀ (i : Instr) (s t : State), exec i s = .next t →
    (t.dt ≠ s.dt → ∃ x, i = .ldDtVx x ∧ t.dt = s.getV x) ∧ (t.st ≠ s.st → ∃ x, i = .ldStVx x ∧ t.st = s.getV x)) ∧
  (∀ s t : State, perform .cpuTick s = .next t →
    (t.dt ≠ s.dt → ∃ op x, s.fetchOpcode = some op ∧ decode op = some (.ldDtVx x)) ∧
    (t.st ≠ s.st → ∃ op x, s.fetchOpcode = some op ∧ decode op = some (.ldStVx x))) ∧
  (∀ s t : State, perform .reset s = .next t → t.dt = 0#8 ∧ t.st = 0#8) ∧
  (∀ (r : Transaction) (s t : State), r ≠ .timerTick → r ≠ .cpuTick → r ≠ .reset → perform r s = .next t →
    t.dt = s.dt ∧ t.st = s.st) ∧
  ∀ (x : RegIdx) (s : State), (keyWaitMoment x s).dt = s.dt ∧ (keyWaitMoment x s).st = s.st

/-! ### Index register and memory (46_index_memory.md, 20_memory.md) -/

/-- R160, R162: LD I sets I to nnn, LD F sets it to 5 * Vx for the whole byte Vx; nothing else changes. -/
def Obligations.IndexLoadAndLowGlyph : Prop :=
  (∀ (nnn : Addr) (s : State), ∃ t, exec (.ldI nnn) s = .next t ∧ OnlyIndexPc s t ∧ t.pc = s.pc + 2#16 ∧
    t.i = nnn) ∧
  ∀ (x : RegIdx) (s : State), ∃ t, exec (.ldF x) s = .next t ∧ OnlyIndexPc s t ∧ t.pc = s.pc + 2#16 ∧
    t.i.toNat = 5 * (s.getV x).toNat

/-- R14, R161, R163, with the spec's decisions D2 (12-bit wrap), D11 (no other writer), D18 (the constant 40) and D32
(VF unchanged) (log 9, log 13): ADD I wraps modulo 4096, LD HF gives 10 * Vx + 40, and besides these two, LD I and
LD F no instruction changes I. -/
def Obligations.IndexSumHighGlyphAndNoOtherWriter : Prop :=
  (∀ (x : RegIdx) (s : State), ∃ t, exec (.addI x) s = .next t ∧ OnlyIndexPc s t ∧ t.pc = s.pc + 2#16 ∧
    t.i.toNat = (s.i.toNat + (s.getV x).toNat) % 4096) ∧
  (∀ (x : RegIdx) (s : State), ∃ t, exec (.ldHf x) s = .next t ∧ OnlyIndexPc s t ∧ t.pc = s.pc + 2#16 ∧
    t.i.toNat = 10 * (s.getV x).toNat + 40) ∧
  ∀ (i : Instr) (s t : State), (∀ nnn, i ≠ .ldI nnn) → (∀ x, i ≠ .addI x) → (∀ x, i ≠ .ldF x) →
    (∀ x, i ≠ .ldHf x) → exec i s = .next t → t.i = s.i

/-- R164, with the spec's decisions D5, D11 (log 13; a fault is a next state: log 5): LD B stores the three decimal
digits of Vx at I, I + 1, I + 2 and changes no other byte and no register; a range that reaches above 0xFFF raises
AddressFault with no byte written. -/
def Obligations.BcdStoresThreeDigits : Prop :=
  (∀ (x : RegIdx) (s : State), Memory.wf s.mem = true → s.ea 2 ≤ 0xFFF → ∃ t, exec (.ldB x) s = .next t ∧
    OnlyMemPc s t ∧ t.pc = s.pc + 2#16 ∧
    (Memory.read t.mem (s.ea 0)).toNat = (s.getV x).toNat / 100 ∧
    (Memory.read t.mem (s.ea 1)).toNat = (s.getV x).toNat / 10 % 10 ∧
    (Memory.read t.mem (s.ea 2)).toNat = (s.getV x).toNat % 10 ∧
    ∀ a, a < s.ea 0 ∨ s.ea 2 < a → Memory.read t.mem a = Memory.read s.mem a) ∧
  ∀ (x : RegIdx) (s : State), 0xFFF < s.ea 2 →
    ∃ t, exec (.ldB x) s = .next t ∧ FaultedFrom .addressFault (encode (.ldB x)) s t

/-- R165, with the spec's decisions D5, D11 (log 13; a fault is a next state: log 5): LD [I], Vx stores V0..Vx from I
up and changes no other byte, no register and not I; a range that reaches above 0xFFF raises AddressFault with no byte
written. -/
def Obligations.BlockStoreWritesRegistersUpToVx : Prop :=
  (∀ (x : RegIdx) (s : State), Memory.wf s.mem = true → s.ea x.toNat ≤ 0xFFF →
    ∃ t, exec (.stBlock x) s = .next t ∧ OnlyMemPc s t ∧ t.pc = s.pc + 2#16 ∧
      (∀ r : RegIdx, r.toNat ≤ x.toNat → Memory.read t.mem (s.ea r.toNat) = s.getV r) ∧
      ∀ a, a < s.ea 0 ∨ s.ea x.toNat < a → Memory.read t.mem a = Memory.read s.mem a) ∧
  ∀ (x : RegIdx) (s : State), 0xFFF < s.ea x.toNat →
    ∃ t, exec (.stBlock x) s = .next t ∧ FaultedFrom .addressFault (encode (.stBlock x)) s t

/-- R166, with the spec's decisions D5, D11 (log 13; a fault is a next state: log 5): LD Vx, [I] loads V0..Vx from I
up; the registers above Vx, I and memory are as before; a range that reaches above 0xFFF raises AddressFault with no
register written. -/
def Obligations.BlockLoadReadsRegistersUpToVx : Prop :=
  (∀ (x : RegIdx) (s : State), s.ea x.toNat ≤ 0xFFF →
    ∃ t, exec (.ldBlock x) s = .next t ∧ OnlyRegsPc s t ∧ t.pc = s.pc + 2#16 ∧
      (∀ r : RegIdx, r.toNat ≤ x.toNat → t.getV r = Memory.read s.mem (s.ea r.toNat)) ∧
      ∀ r : RegIdx, x.toNat < r.toNat → t.getV r = s.getV r) ∧
  ∀ (x : RegIdx) (s : State), 0xFFF < s.ea x.toNat →
    ∃ t, exec (.ldBlock x) s = .next t ∧ FaultedFrom .addressFault (encode (.ldBlock x)) s t

/-- The round trip of R166: storing V0..Vk at I and then loading from the same address gives the registers back,
whatever they held in between. -/
def Obligations.BlockStoreThenLoadRoundTrips : Prop :=
  ∀ (x : RegIdx) (s : State), Memory.wf s.mem = true → s.ea x.toNat ≤ 0xFFF →
    ∃ t, exec (.stBlock x) s = .next t ∧
      ∀ t' : State, t'.mem = t.mem → t'.i = t.i →
        ∃ u, exec (.ldBlock x) t' = .next u ∧ ∀ r : RegIdx, r.toNat ≤ x.toNat → u.getV r = s.getV r

/-- R50, with the spec's decision D24 (log 13): after a store by Fx55 or Fx33 a fetch from any address, that of the
very next instruction among them, reads the bytes stored where it meets them, with both bytes or with one, and
elsewhere the bytes from before the store. -/
def Obligations.FetchSeesEveryStore : Prop :=
  (∀ (x : RegIdx) (s : State), Memory.wf s.mem = true → s.ea x.toNat ≤ 0xFFF →
    ∃ t, exec (.stBlock x) s = .next t ∧ ∀ u : State, u.mem = t.mem → u.pc.toNat ≤ 0xFFE →
      u.fetchOpcode =
        some (opcodeOver (s.overlaid (x.toNat + 1) fun k => s.getV (BitVec.ofNat 4 k)) u.pc.toNat)) ∧
  ∀ (x : RegIdx) (s : State), Memory.wf s.mem = true → s.ea 2 ≤ 0xFFF →
    ∃ t, exec (.ldB x) s = .next t ∧ ∀ u : State, u.mem = t.mem → u.pc.toNat ≤ 0xFFE →
      u.fetchOpcode =
        some (opcodeOver (s.overlaid 3 fun k => BitVec.ofNat 8 (decimalDigit (s.getV x).toNat k)) u.pc.toNat)

/-! ### The host's transactions (70_reset_and_hazards.md, 40_display_engine.md) -/

/-- R231, with the spec's decision D25 (log 13), the font of log 11 and the schedule of log 1: an accepted load copies
the font to 0..239 and the program to its offset, sets PC to the offset and STATUS to RUNNING; every other byte and
all other state keep their values. -/
def Obligations.LoadCopiesFontAndProgram : Prop :=
  ∀ (s : State) (base : Nat) (program : List Byte) (font : Option (Vector Byte 240)),
    s.waiting = none → s.host.take.1 = .load base program font → Memory.wf s.mem = true →
    240 ≤ base → base + program.length ≤ 4096 →
    ∃ t, step s = .next t ∧ t = { s.taken with mem := t.mem, pc := t.pc, status := .running } ∧
      t.pc.toNat = base ∧ (∀ k, k < 240 → Memory.read t.mem k = (font.getD Config.defaultFont).toList.getD k 0#8) ∧
      (∀ k, k < program.length → Memory.read t.mem (base + k) = program.getD k 0#8) ∧
      ∀ a, 240 ≤ a → a < base ∨ base + program.length ≤ a → Memory.read t.mem a = Memory.read s.mem a

/-- R232, with the spec's decision D25 (log 12, log 13) and the schedule of log 1: a load below 240, or of a program
that does not fit, has no move: the step is refused. -/
def Obligations.BadLoadIsRefused : Prop :=
  ∀ (s : State) (base : Nat) (program : List Byte) (font : Option (Vector Byte 240)),
    s.waiting = none → s.host.take.1 = .load base program font →
    base < 240 ∨ 4096 < base + program.length → step s = .refused .loadRefused

/-- R230, R25, the values being the spec's decision D14 (log 8), with the schedule of log 1 and a fault being a next
state (log 5): power-on reset sets every piece of the core's state to its value, and a CPU tick straight after it
raises DecodeFault with FPC = 0. That reset leaves the host's side as it is (the clause on the host) is the model's
own choice (log 19). -/
def Obligations.PowerOnResetSetsEveryPiece : Prop :=
  ∀ s : State, s.waiting = none → s.host.take.1 = .reset →
    ∃ t, step s = .next t ∧ (∀ r, t.getV r = 0#8) ∧ t.pc = 0#16 ∧ t.i = 0#12 ∧ t.sp = 0#5 ∧
      (∀ k, t.slot k = 0#12) ∧ t.dt = 0#8 ∧ t.st = 0#8 ∧ (∀ a, Memory.read t.mem a = 0#8) ∧
      (∀ r, t.disp.row r = 0#128) ∧ t.disp.mode = .low ∧ t.disp.dirty = false ∧ t.status = .running ∧
      t.fcause = .none ∧ t.fopcode = 0#16 ∧ t.fpc = 0#16 ∧ t.host = s.taken.host ∧
      (t.host.take.1 = .cpuTick → ∃ u, step t = .next u ∧ FaultedFrom .decodeFault 0#16 t.taken u ∧ u.fpc = 0#16)

/-- R87, and R80's mapping, the spec's decision D8 (log 13), with what `read()` returns given as a function of the
state before it (log 20): it returns the 64 rows as they are, bit `127 - c` of row `r` being the pixel at column `c`,
and changes DIRTY to 0 and nothing else. -/
def Obligations.ReadReturnsTheBufferAndClearsDirty : Prop :=
  ∀ s : State, perform .read s = .next { s with disp := { s.disp with dirty := false } } ∧
    ∀ (c : Fin 128) (r : Fin 64), (s.displayRows[r.val]).getLsbD (127 - c.val) = s.disp.dot c r

/-- R88, with the spec's decision D28 (log 12, log 13; what is returned: log 20): `read_px(x, y)` with coordinates in
the buffer returns bit `127 - x` of row `y` and changes DIRTY to 0 and nothing else; with others it is refused. -/
def Obligations.PixelReadClearsDirtyOrIsRefused : Prop :=
  ∀ (s : State) (x y : Nat),
    (x < 128 → y < 64 → perform (.readPx x y) s = .next { s with disp := { s.disp with dirty := false } } ∧
      s.displayPixel x y = some ((s.disp.row y).getLsbD (127 - x))) ∧
    (128 ≤ x ∨ 64 ≤ y → perform (.readPx x y) s = .refused .pixelOutOfRange ∧ s.displayPixel x y = none)
end

