-- ==== Sys2Proof/Laws/Display.lean ====
section
/-! SUPPORT. The display primitives, row by row and pixel by pixel (spec 40_display_engine.md). -/

namespace Sys2Proof.Machine

@[simp] theorem rowsOf_getElem (f : Fin 64 → Row) (r : Nat) (h : r < 64) : (rowsOf f)[r] = f ⟨r, h⟩ := by
  simp [rowsOf]

/-- A right rotation bit by bit: bit `p` of the result is bit `(p + k) mod 128` of the row. -/
theorem getLsbD_ror128 (r : Row) (k p : Nat) (hp : p < 128) : (ror128 r k).getLsbD p = r.getLsbD ((p + k) % 128) := by
  unfold ror128
  rw [BitVec.getLsbD_rotateRight]
  simp only [Nat.mod_mod]
  by_cases h : p < 128 - k % 128
  · simp only [h, decide_true, cond_true]; congr 1; omega
  · simp only [h, hp, decide_true, decide_false, cond_false, Bool.true_and]; congr 1; omega

/-- A right rotation moves each pixel `k` columns right, round the row (R80, R85). -/
theorem pixel_ror128 (r : Row) (k c : Nat) (hc : c < 128) :
    pixel (ror128 r k) ((c + k) % 128) = pixel r c := by
  unfold pixel
  rw [getLsbD_ror128 _ _ _ (by omega)]
  congr 1; omega

/-- A left rotation moves each pixel `k` columns left, round the row. -/
theorem pixel_rol128 (r : Row) (k c : Nat) (hc : c < 128) :
    pixel (rol128 r k) c = pixel r ((c + k) % 128) := by
  unfold rol128 pixel
  rw [getLsbD_ror128 _ _ _ (by omega)]
  congr 1; omega

/-- The rows of a downward scroll (R84). -/
theorem scrollDown_row (d : Display) (n r : Nat) (h : r < 64) :
    (d.scrollDown n).fb[r] =
      if r < 2 then 0#128 else d.fb[(r + (64 - n % 64)) % 64]'(Nat.mod_lt _ (by decide)) := by
  simp [Display.scrollDown]

@[simp] theorem scrollDown_mode (d : Display) (n : Nat) : (d.scrollDown n).mode = d.mode := rfl
@[simp] theorem scrollDown_dirty (d : Display) (n : Nat) : (d.scrollDown n).dirty = true := rfl
@[simp] theorem clear_mode (d : Display) : d.clear.mode = d.mode := rfl
@[simp] theorem clear_dirty (d : Display) : d.clear.dirty = true := rfl
theorem clear_row (d : Display) (r : Nat) (h : r < 64) : d.clear.fb[r] = 0#128 := by simp [Display.clear]
@[simp] theorem setMode_mode (d : Display) (m : Mode) : (d.setMode m).mode = m := rfl
@[simp] theorem setMode_fb (d : Display) (m : Mode) : (d.setMode m).fb = d.fb := rfl
@[simp] theorem setMode_dirty (d : Display) (m : Mode) : (d.setMode m).dirty = d.dirty := rfl
@[simp] theorem markRead_mode (d : Display) : d.markRead.mode = d.mode := rfl
@[simp] theorem markRead_fb (d : Display) : d.markRead.fb = d.fb := rfl
@[simp] theorem markRead_dirty (d : Display) : d.markRead.dirty = false := rfl
@[simp] theorem writeByte_mode (d : Display) (b : Byte) (x y : Nat) : (d.writeByte b x y).2.mode = d.mode := rfl
@[simp] theorem writeByte_dirty (d : Display) (b : Byte) (x y : Nat) : (d.writeByte b x y).2.dirty = true := rfl

/-- `scroll_side` to the right (R85). -/
theorem scrollSide_right (d : Display) (n : Nat) (h : 0 < n) :
    d.scrollSide (n : Int) = { d with fb := rowsOf fun r => ror128 d.fb[r.val] n, dirty := true } := by
  have hn : (n : Int) > 0 := by omega
  simp only [Display.scrollSide, hn, if_true, Int.natAbs_natCast]

/-- `scroll_side` to the left (R85). -/
theorem scrollSide_left (d : Display) (n : Nat) (h : 0 < n) :
    d.scrollSide (-(n : Int)) = { d with fb := rowsOf fun r => rol128 d.fb[r.val] n, dirty := true } := by
  have h1 : ¬ (-(n : Int)) > 0 := by omega
  have h2 : (-(n : Int)) < 0 := by omega
  simp only [Display.scrollSide, h1, if_false, h2, if_true, Int.natAbs_neg, Int.natAbs_natCast]

/-- `scroll_side(0)` is the no-op of R85. -/
theorem scrollSide_zero (d : Display) : d.scrollSide 0 = d := by simp [Display.scrollSide]

/-- XOR into one row, row by row. -/
theorem xorRow_row (mask : Row) (fb : Vector Row 64) (r : Fin 64) (q : Nat) (h : q < 64) :
    (xorRow mask fb r)[q] = if q = r.val then fb[q] ^^^ mask else fb[q] := by
  unfold xorRow
  rw [Vector.getElem_set]
  by_cases e : r.val = q
  · subst e; simp
  · simp [e, Ne.symm e]

/-- The bits of an expanded byte (R81). -/
theorem getLsbD_expand : ∀ (b : Byte) (p : Fin 16), (expand b).getLsbD p.val = b.getLsbD (p.val / 2) := by decide

/-- The pixels of an 8-wide pattern placed at a column in high-resolution mode (R82): column `(col + j) mod 128`
shows bit `7 - j`. -/
theorem pixel_spriteMask_high (b : Byte) (x c : Nat) (hc : c < 128) :
    pixel (spriteMask .high b x) c =
      (decide ((c + 128 - x % 128) % 128 < 8) && b.getLsbD (7 - (c + 128 - x % 128) % 128)) := by
  unfold spriteMask pixel
  rw [getLsbD_ror128 _ _ _ (by omega)]
  have e : (127 - c + x % 128) % 128 = 127 - (c + 128 - x % 128) % 128 := by omega
  simp only [e]
  generalize hj : (c + 128 - x % 128) % 128 = j
  have hj' : j < 128 := by omega
  rw [BitVec.getLsbD_shiftLeft, BitVec.getLsbD_setWidth]
  by_cases h : j < 8
  · have h1 : 127 - j < 128 := by omega
    have h2 : ¬ 127 - j < 120 := by omega
    have h3 : 127 - j - 120 = 7 - j := by omega
    have h4 : 7 - j < 128 := by omega
    simp [h, h1, h2, h3, h4]
  · have h2 : 127 - j < 120 := by omega
    simp [h, h2]

/-- The pixels of a doubled pattern in low-resolution mode (R82). -/
theorem pixel_spriteMask_low (b : Byte) (x c : Nat) (hc : c < 128) :
    pixel (spriteMask .low b x) c =
      (decide ((c + 128 - 2 * x % 128) % 128 < 16) && b.getLsbD (7 - (c + 128 - 2 * x % 128) % 128 / 2)) := by
  unfold spriteMask pixel
  rw [getLsbD_ror128 _ _ _ (by omega)]
  have e : (127 - c + 2 * x % 128) % 128 = 127 - (c + 128 - 2 * x % 128) % 128 := by omega
  simp only [e]
  generalize hj : (c + 128 - 2 * x % 128) % 128 = j
  have hj' : j < 128 := by omega
  rw [BitVec.getLsbD_shiftLeft, BitVec.getLsbD_setWidth]
  by_cases h : j < 16
  · have h1 : 127 - j < 128 := by omega
    have h2 : ¬ 127 - j < 112 := by omega
    have h3 : 127 - j - 112 = 15 - j := by omega
    have h4 : 15 - j < 128 := by omega
    have hx := getLsbD_expand b ⟨15 - j, by omega⟩
    simp only at hx
    have h5 : (15 - j) / 2 = 7 - j / 2 := by omega
    simp [h, h1, h2, h3, h4, hx, h5]
  · have h2 : 127 - j < 112 := by omega
    simp [h, h2]

/-- The rows a sprite byte goes to, as a condition on the row (R82). -/
theorem mem_spriteRows (m : Mode) (y : Nat) (r : Fin 64) :
    r ∈ spriteRows m y ↔ match m with
      | .low => r.val = 2 * y % 64 ∨ r.val = (2 * y + 1) % 64
      | .high => r.val = y % 64 := by
  cases m <;> simp [spriteRows, Fin.ext_iff]

/-- What `write` does to a pixel of the buffer, given by its column and row: it is flipped where the pattern shows
(R82). -/
theorem pixel_writeByte (d : Display) (b : Byte) (x y c : Nat) (r : Fin 64) :
    pixel (d.writeByte b x y).2.fb[r.val] c =
      (pixel d.fb[r.val] c ^^ (decide (r ∈ spriteRows d.mode y) && pixel (spriteMask d.mode b x) c)) := by
  unfold Display.writeByte
  cases d.mode with
  | high =>
    simp only [spriteRows, List.foldl, xorRow_row, List.mem_singleton, pixel, Fin.ext_iff]
    by_cases h : r.val = (Fin.ofNat 64 y).val <;> simp only [h, if_true, if_false, decide_true, decide_false,
      Bool.true_and, Bool.false_and, Bool.xor_false, BitVec.getLsbD_xor]
  | low =>
    have hne : (Fin.ofNat 64 (2 * y)).val ≠ (Fin.ofNat 64 (2 * y + 1)).val := by simp only [Fin.val_ofNat]; omega
    simp only [spriteRows, List.foldl, xorRow_row, List.mem_cons, List.not_mem_nil, or_false, pixel, Fin.ext_iff]
    generalize (Fin.ofNat 64 (2 * y)).val = u at *
    generalize (Fin.ofNat 64 (2 * y + 1)).val = v at *
    by_cases hu : r.val = u
    · have hv : ¬ r.val = v := fun e => hne (hu.symm.trans e)
      simp only [hu, hne, if_true, if_false, true_or, decide_true, Bool.true_and, BitVec.getLsbD_xor]
    · by_cases hv : r.val = v <;> simp only [hu, hv, hne.symm, if_true, if_false, or_true, or_false, decide_true,
        decide_false, Bool.true_and, Bool.false_and, Bool.xor_false, BitVec.getLsbD_xor]

@[simp] theorem writeAll_mode (d : Display) (calls : List WriteCall) : (d.writeAll calls).2.mode = d.mode := by
  induction calls generalizing d with
  | nil => rfl
  | cons call calls ih => obtain ⟨b, x, y⟩ := call; simp [Display.writeAll, ih]

/-- A sequence of `write` calls sets DIRTY unless it is empty (R82). -/
theorem writeAll_dirty (d : Display) (calls : List WriteCall) :
    (d.writeAll calls).2.dirty = (d.dirty || !calls.isEmpty) := by
  induction calls generalizing d with
  | nil => simp [Display.writeAll]
  | cons call calls ih => obtain ⟨b, x, y⟩ := call; simp [Display.writeAll, ih]

end Sys2Proof.Machine
end

