-- ==== Sys2Proof/Laws/Encoding.lean ====
section
/-! SUPPORT. The bits of an encoded word, and reading its fields back (spec 30_encoding.md R62, R63). -/

namespace Sys2Proof

theorem getLsbD_encXKK (f : BitVec 4) (x : RegIdx) (kk : Byte) (j : Nat) :
    (encXKK f x kk).getLsbD j =
      if j < 8 then kk.getLsbD j else if j - 8 < 4 then x.getLsbD (j - 8) else f.getLsbD (j - 8 - 4) := by
  unfold encXKK
  erw [BitVec.getLsbD_append, BitVec.getLsbD_append]

theorem getLsbD_encNNN (f : BitVec 4) (nnn : Addr) (j : Nat) :
    (encNNN f nnn).getLsbD j = if j < 12 then nnn.getLsbD j else f.getLsbD (j - 12) := by
  unfold encNNN
  erw [BitVec.getLsbD_append]

theorem getLsbD_encXYN (f : BitVec 4) (x y : RegIdx) (n : BitVec 4) (j : Nat) :
    (encXYN f x y n).getLsbD j =
      if j < 4 then n.getLsbD j else if j - 4 < 4 then y.getLsbD (j - 4)
      else if j - 4 - 4 < 4 then x.getLsbD (j - 4 - 4) else f.getLsbD (j - 4 - 4 - 4) := by
  unfold encXYN
  erw [BitVec.getLsbD_append, BitVec.getLsbD_append, BitVec.getLsbD_append]

@[simp] theorem famField_encXKK (f : BitVec 4) (x : RegIdx) (kk : Byte) : famField (encXKK f x kk) = f := by
  ext i hi
  rw [famField, BitVec.getElem_extractLsb', getLsbD_encXKK, if_neg (by omega), if_neg (by omega), ← BitVec.getLsbD_eq_getElem hi]
  congr 1; omega

@[simp] theorem xField_encXKK (f : BitVec 4) (x : RegIdx) (kk : Byte) : xField (encXKK f x kk) = x := by
  ext i hi
  rw [xField, BitVec.getElem_extractLsb', getLsbD_encXKK, if_neg (by omega), if_pos (by omega), ← BitVec.getLsbD_eq_getElem hi]
  congr 1; omega

@[simp] theorem kkField_encXKK (f : BitVec 4) (x : RegIdx) (kk : Byte) : kkField (encXKK f x kk) = kk := by
  ext i hi
  rw [kkField, BitVec.getElem_extractLsb', getLsbD_encXKK, if_pos (by omega), ← BitVec.getLsbD_eq_getElem hi]
  congr 1; omega

@[simp] theorem famField_encNNN (f : BitVec 4) (nnn : Addr) : famField (encNNN f nnn) = f := by
  ext i hi
  rw [famField, BitVec.getElem_extractLsb', getLsbD_encNNN, if_neg (by omega), ← BitVec.getLsbD_eq_getElem hi]
  congr 1; omega

@[simp] theorem nnnField_encNNN (f : BitVec 4) (nnn : Addr) : nnnField (encNNN f nnn) = nnn := by
  ext i hi
  rw [nnnField, BitVec.getElem_extractLsb', getLsbD_encNNN, if_pos (by omega), ← BitVec.getLsbD_eq_getElem hi]
  congr 1; omega

@[simp] theorem famField_encXYN (f : BitVec 4) (x y : RegIdx) (n : BitVec 4) : famField (encXYN f x y n) = f := by
  ext i hi
  rw [famField, BitVec.getElem_extractLsb', getLsbD_encXYN, if_neg (by omega), if_neg (by omega), if_neg (by omega), ← BitVec.getLsbD_eq_getElem hi]
  congr 1; omega

@[simp] theorem xField_encXYN (f : BitVec 4) (x y : RegIdx) (n : BitVec 4) : xField (encXYN f x y n) = x := by
  ext i hi
  rw [xField, BitVec.getElem_extractLsb', getLsbD_encXYN, if_neg (by omega), if_neg (by omega), if_pos (by omega), ← BitVec.getLsbD_eq_getElem hi]
  congr 1; omega

@[simp] theorem yField_encXYN (f : BitVec 4) (x y : RegIdx) (n : BitVec 4) : yField (encXYN f x y n) = y := by
  ext i hi
  rw [yField, BitVec.getElem_extractLsb', getLsbD_encXYN, if_neg (by omega), if_pos (by omega), ← BitVec.getLsbD_eq_getElem hi]
  congr 1; omega

@[simp] theorem nField_encXYN (f : BitVec 4) (x y : RegIdx) (n : BitVec 4) : nField (encXYN f x y n) = n := by
  ext i hi
  rw [nField, BitVec.getElem_extractLsb', getLsbD_encXYN, if_pos (by omega), ← BitVec.getLsbD_eq_getElem hi]
  congr 1; omega

/-- The two bytes of a word give the word back (R44). -/
@[simp] theorem opcodeOfBytes_bytes (op : Word) : opcodeOfBytes (hiByte op) (loByte op) = op := by
  ext i hi
  rw [← BitVec.getLsbD_eq_getElem hi, opcodeOfBytes, hiByte, loByte]
  erw [BitVec.getLsbD_append]
  by_cases h : i < 8
  · rw [if_pos h, BitVec.getLsbD_extractLsb']; simp [h, BitVec.getLsbD_eq_getElem hi]
  · rw [if_neg h, BitVec.getLsbD_extractLsb']
    have h8 : i - 8 < 8 := by omega
    simp [h8, show 8 + (i - 8) = i by omega, BitVec.getLsbD_eq_getElem hi]

/-- The opcode of two bytes as a number (R44). -/
theorem opcodeOfBytes_toNat (hi lo : Byte) : (opcodeOfBytes hi lo).toNat = 256 * hi.toNat + lo.toNat := by
  unfold opcodeOfBytes
  erw [BitVec.toNat_append]
  rw [Nat.shiftLeft_eq, Nat.mul_comm, ← Nat.two_pow_add_eq_or_of_lt lo.isLt]

/-- Every term is well formed: the field widths are in the types (R63, R64). -/
theorem instr_wf (i : Instr) : i.wf = true := by cases i <;> rfl

/-- Decoding bytes is decoding the word they make (R44). -/
theorem decodeBytes_cons (hi lo : Byte) (rest : List Byte) :
    decodeBytes (hi :: lo :: rest) =
      match decode (opcodeOfBytes hi lo) with
      | some i => .ok (i, rest)
      | none => .error (.reserved (opcodeOfBytes hi lo)) := rfl

end Sys2Proof
end

