-- ==== Sys2Proof/Laws/State.lean ====
section
/-! SUPPORT. What every update of State does to every field, so that no later proof unfolds a record update. -/

namespace Sys2Proof.Machine

variable (s : State)

@[simp] theorem setV_pc (x : RegIdx) (b : Byte) : (s.setV x b).pc = s.pc := rfl
@[simp] theorem setV_i (x : RegIdx) (b : Byte) : (s.setV x b).i = s.i := rfl
@[simp] theorem setV_sp (x : RegIdx) (b : Byte) : (s.setV x b).sp = s.sp := rfl
@[simp] theorem setV_stack (x : RegIdx) (b : Byte) : (s.setV x b).stack = s.stack := rfl
@[simp] theorem setV_dt (x : RegIdx) (b : Byte) : (s.setV x b).dt = s.dt := rfl
@[simp] theorem setV_st (x : RegIdx) (b : Byte) : (s.setV x b).st = s.st := rfl
@[simp] theorem setV_mem (x : RegIdx) (b : Byte) : (s.setV x b).mem = s.mem := rfl
@[simp] theorem setV_disp (x : RegIdx) (b : Byte) : (s.setV x b).disp = s.disp := rfl
@[simp] theorem setV_status (x : RegIdx) (b : Byte) : (s.setV x b).status = s.status := rfl
@[simp] theorem setV_fcause (x : RegIdx) (b : Byte) : (s.setV x b).fcause = s.fcause := rfl
@[simp] theorem setV_fopcode (x : RegIdx) (b : Byte) : (s.setV x b).fopcode = s.fopcode := rfl
@[simp] theorem setV_fpc (x : RegIdx) (b : Byte) : (s.setV x b).fpc = s.fpc := rfl
@[simp] theorem setV_waiting (x : RegIdx) (b : Byte) : (s.setV x b).waiting = s.waiting := rfl
@[simp] theorem setV_host (x : RegIdx) (b : Byte) : (s.setV x b).host = s.host := rfl

@[simp] theorem setPc_v (t : Word) : (s.setPc t).v = s.v := rfl
@[simp] theorem setPc_pc (t : Word) : (s.setPc t).pc = t := rfl
@[simp] theorem setPc_i (t : Word) : (s.setPc t).i = s.i := rfl
@[simp] theorem setPc_sp (t : Word) : (s.setPc t).sp = s.sp := rfl
@[simp] theorem setPc_stack (t : Word) : (s.setPc t).stack = s.stack := rfl
@[simp] theorem setPc_dt (t : Word) : (s.setPc t).dt = s.dt := rfl
@[simp] theorem setPc_st (t : Word) : (s.setPc t).st = s.st := rfl
@[simp] theorem setPc_mem (t : Word) : (s.setPc t).mem = s.mem := rfl
@[simp] theorem setPc_disp (t : Word) : (s.setPc t).disp = s.disp := rfl
@[simp] theorem setPc_status (t : Word) : (s.setPc t).status = s.status := rfl
@[simp] theorem setPc_fcause (t : Word) : (s.setPc t).fcause = s.fcause := rfl
@[simp] theorem setPc_fopcode (t : Word) : (s.setPc t).fopcode = s.fopcode := rfl
@[simp] theorem setPc_fpc (t : Word) : (s.setPc t).fpc = s.fpc := rfl
@[simp] theorem setPc_waiting (t : Word) : (s.setPc t).waiting = s.waiting := rfl
@[simp] theorem setPc_host (t : Word) : (s.setPc t).host = s.host := rfl

@[simp] theorem advance_v : (s.advance).v = s.v := rfl
@[simp] theorem advance_pc : (s.advance).pc = s.pc + 2#16 := rfl
@[simp] theorem advance_i : (s.advance).i = s.i := rfl
@[simp] theorem advance_sp : (s.advance).sp = s.sp := rfl
@[simp] theorem advance_stack : (s.advance).stack = s.stack := rfl
@[simp] theorem advance_dt : (s.advance).dt = s.dt := rfl
@[simp] theorem advance_st : (s.advance).st = s.st := rfl
@[simp] theorem advance_mem : (s.advance).mem = s.mem := rfl
@[simp] theorem advance_disp : (s.advance).disp = s.disp := rfl
@[simp] theorem advance_status : (s.advance).status = s.status := rfl
@[simp] theorem advance_fcause : (s.advance).fcause = s.fcause := rfl
@[simp] theorem advance_fopcode : (s.advance).fopcode = s.fopcode := rfl
@[simp] theorem advance_fpc : (s.advance).fpc = s.fpc := rfl
@[simp] theorem advance_waiting : (s.advance).waiting = s.waiting := rfl
@[simp] theorem advance_host : (s.advance).host = s.host := rfl

@[simp] theorem skipIf_v (c : Bool) : (s.skipIf c).v = s.v := rfl
@[simp] theorem skipIf_pc (c : Bool) : (s.skipIf c).pc = if c then s.pc + 4#16 else s.pc + 2#16 := rfl
@[simp] theorem skipIf_i (c : Bool) : (s.skipIf c).i = s.i := rfl
@[simp] theorem skipIf_sp (c : Bool) : (s.skipIf c).sp = s.sp := rfl
@[simp] theorem skipIf_stack (c : Bool) : (s.skipIf c).stack = s.stack := rfl
@[simp] theorem skipIf_dt (c : Bool) : (s.skipIf c).dt = s.dt := rfl
@[simp] theorem skipIf_st (c : Bool) : (s.skipIf c).st = s.st := rfl
@[simp] theorem skipIf_mem (c : Bool) : (s.skipIf c).mem = s.mem := rfl
@[simp] theorem skipIf_disp (c : Bool) : (s.skipIf c).disp = s.disp := rfl
@[simp] theorem skipIf_status (c : Bool) : (s.skipIf c).status = s.status := rfl
@[simp] theorem skipIf_fcause (c : Bool) : (s.skipIf c).fcause = s.fcause := rfl
@[simp] theorem skipIf_fopcode (c : Bool) : (s.skipIf c).fopcode = s.fopcode := rfl
@[simp] theorem skipIf_fpc (c : Bool) : (s.skipIf c).fpc = s.fpc := rfl
@[simp] theorem skipIf_waiting (c : Bool) : (s.skipIf c).waiting = s.waiting := rfl
@[simp] theorem skipIf_host (c : Bool) : (s.skipIf c).host = s.host := rfl

@[simp] theorem setHost_v (h : HostSide) : (s.setHost h).v = s.v := rfl
@[simp] theorem setHost_pc (h : HostSide) : (s.setHost h).pc = s.pc := rfl
@[simp] theorem setHost_i (h : HostSide) : (s.setHost h).i = s.i := rfl
@[simp] theorem setHost_sp (h : HostSide) : (s.setHost h).sp = s.sp := rfl
@[simp] theorem setHost_stack (h : HostSide) : (s.setHost h).stack = s.stack := rfl
@[simp] theorem setHost_dt (h : HostSide) : (s.setHost h).dt = s.dt := rfl
@[simp] theorem setHost_st (h : HostSide) : (s.setHost h).st = s.st := rfl
@[simp] theorem setHost_mem (h : HostSide) : (s.setHost h).mem = s.mem := rfl
@[simp] theorem setHost_disp (h : HostSide) : (s.setHost h).disp = s.disp := rfl
@[simp] theorem setHost_status (h : HostSide) : (s.setHost h).status = s.status := rfl
@[simp] theorem setHost_fcause (h : HostSide) : (s.setHost h).fcause = s.fcause := rfl
@[simp] theorem setHost_fopcode (h : HostSide) : (s.setHost h).fopcode = s.fopcode := rfl
@[simp] theorem setHost_fpc (h : HostSide) : (s.setHost h).fpc = s.fpc := rfl
@[simp] theorem setHost_waiting (h : HostSide) : (s.setHost h).waiting = s.waiting := rfl
@[simp] theorem setHost_host (h : HostSide) : (s.setHost h).host = h := rfl

@[simp] theorem setResultFlag_pc (x : RegIdx) (r : Byte) (f : Bool) : (s.setResultFlag x r f).pc = s.pc := rfl
@[simp] theorem setResultFlag_i (x : RegIdx) (r : Byte) (f : Bool) : (s.setResultFlag x r f).i = s.i := rfl
@[simp] theorem setResultFlag_sp (x : RegIdx) (r : Byte) (f : Bool) : (s.setResultFlag x r f).sp = s.sp := rfl
@[simp] theorem setResultFlag_stack (x : RegIdx) (r : Byte) (f : Bool) : (s.setResultFlag x r f).stack = s.stack := rfl
@[simp] theorem setResultFlag_dt (x : RegIdx) (r : Byte) (f : Bool) : (s.setResultFlag x r f).dt = s.dt := rfl
@[simp] theorem setResultFlag_st (x : RegIdx) (r : Byte) (f : Bool) : (s.setResultFlag x r f).st = s.st := rfl
@[simp] theorem setResultFlag_mem (x : RegIdx) (r : Byte) (f : Bool) : (s.setResultFlag x r f).mem = s.mem := rfl
@[simp] theorem setResultFlag_disp (x : RegIdx) (r : Byte) (f : Bool) : (s.setResultFlag x r f).disp = s.disp := rfl
@[simp] theorem setResultFlag_status (x : RegIdx) (r : Byte) (f : Bool) : (s.setResultFlag x r f).status = s.status := rfl
@[simp] theorem setResultFlag_fcause (x : RegIdx) (r : Byte) (f : Bool) : (s.setResultFlag x r f).fcause = s.fcause := rfl
@[simp] theorem setResultFlag_fopcode (x : RegIdx) (r : Byte) (f : Bool) : (s.setResultFlag x r f).fopcode = s.fopcode := rfl
@[simp] theorem setResultFlag_fpc (x : RegIdx) (r : Byte) (f : Bool) : (s.setResultFlag x r f).fpc = s.fpc := rfl
@[simp] theorem setResultFlag_waiting (x : RegIdx) (r : Byte) (f : Bool) : (s.setResultFlag x r f).waiting = s.waiting := rfl
@[simp] theorem setResultFlag_host (x : RegIdx) (r : Byte) (f : Bool) : (s.setResultFlag x r f).host = s.host := rfl

@[simp] theorem withDisplay_v (d : Display) : (s.withDisplay d).v = s.v := rfl
@[simp] theorem withDisplay_pc (d : Display) : (s.withDisplay d).pc = s.pc + 2#16 := rfl
@[simp] theorem withDisplay_i (d : Display) : (s.withDisplay d).i = s.i := rfl
@[simp] theorem withDisplay_sp (d : Display) : (s.withDisplay d).sp = s.sp := rfl
@[simp] theorem withDisplay_stack (d : Display) : (s.withDisplay d).stack = s.stack := rfl
@[simp] theorem withDisplay_dt (d : Display) : (s.withDisplay d).dt = s.dt := rfl
@[simp] theorem withDisplay_st (d : Display) : (s.withDisplay d).st = s.st := rfl
@[simp] theorem withDisplay_mem (d : Display) : (s.withDisplay d).mem = s.mem := rfl
@[simp] theorem withDisplay_disp (d : Display) : (s.withDisplay d).disp = d := rfl
@[simp] theorem withDisplay_status (d : Display) : (s.withDisplay d).status = s.status := rfl
@[simp] theorem withDisplay_fcause (d : Display) : (s.withDisplay d).fcause = s.fcause := rfl
@[simp] theorem withDisplay_fopcode (d : Display) : (s.withDisplay d).fopcode = s.fopcode := rfl
@[simp] theorem withDisplay_fpc (d : Display) : (s.withDisplay d).fpc = s.fpc := rfl
@[simp] theorem withDisplay_waiting (d : Display) : (s.withDisplay d).waiting = s.waiting := rfl
@[simp] theorem withDisplay_host (d : Display) : (s.withDisplay d).host = s.host := rfl

@[simp] theorem loadBlock_pc (x : RegIdx) : (s.loadBlock x).pc = s.pc := rfl
@[simp] theorem loadBlock_i (x : RegIdx) : (s.loadBlock x).i = s.i := rfl
@[simp] theorem loadBlock_sp (x : RegIdx) : (s.loadBlock x).sp = s.sp := rfl
@[simp] theorem loadBlock_stack (x : RegIdx) : (s.loadBlock x).stack = s.stack := rfl
@[simp] theorem loadBlock_dt (x : RegIdx) : (s.loadBlock x).dt = s.dt := rfl
@[simp] theorem loadBlock_st (x : RegIdx) : (s.loadBlock x).st = s.st := rfl
@[simp] theorem loadBlock_mem (x : RegIdx) : (s.loadBlock x).mem = s.mem := rfl
@[simp] theorem loadBlock_disp (x : RegIdx) : (s.loadBlock x).disp = s.disp := rfl
@[simp] theorem loadBlock_status (x : RegIdx) : (s.loadBlock x).status = s.status := rfl
@[simp] theorem loadBlock_fcause (x : RegIdx) : (s.loadBlock x).fcause = s.fcause := rfl
@[simp] theorem loadBlock_fopcode (x : RegIdx) : (s.loadBlock x).fopcode = s.fopcode := rfl
@[simp] theorem loadBlock_fpc (x : RegIdx) : (s.loadBlock x).fpc = s.fpc := rfl
@[simp] theorem loadBlock_waiting (x : RegIdx) : (s.loadBlock x).waiting = s.waiting := rfl
@[simp] theorem loadBlock_host (x : RegIdx) : (s.loadBlock x).host = s.host := rfl

@[simp] theorem raiseFault_v (c : FaultCause) (op : Word) : (raiseFault c op s).v = s.v := rfl
@[simp] theorem raiseFault_pc (c : FaultCause) (op : Word) : (raiseFault c op s).pc = s.pc := rfl
@[simp] theorem raiseFault_i (c : FaultCause) (op : Word) : (raiseFault c op s).i = s.i := rfl
@[simp] theorem raiseFault_sp (c : FaultCause) (op : Word) : (raiseFault c op s).sp = s.sp := rfl
@[simp] theorem raiseFault_stack (c : FaultCause) (op : Word) : (raiseFault c op s).stack = s.stack := rfl
@[simp] theorem raiseFault_dt (c : FaultCause) (op : Word) : (raiseFault c op s).dt = s.dt := rfl
@[simp] theorem raiseFault_st (c : FaultCause) (op : Word) : (raiseFault c op s).st = s.st := rfl
@[simp] theorem raiseFault_mem (c : FaultCause) (op : Word) : (raiseFault c op s).mem = s.mem := rfl
@[simp] theorem raiseFault_disp (c : FaultCause) (op : Word) : (raiseFault c op s).disp = s.disp := rfl
@[simp] theorem raiseFault_status (c : FaultCause) (op : Word) : (raiseFault c op s).status = .faulted := rfl
@[simp] theorem raiseFault_fcause (c : FaultCause) (op : Word) : (raiseFault c op s).fcause = c := rfl
@[simp] theorem raiseFault_fopcode (c : FaultCause) (op : Word) : (raiseFault c op s).fopcode = op := rfl
@[simp] theorem raiseFault_fpc (c : FaultCause) (op : Word) : (raiseFault c op s).fpc = s.pc := rfl
@[simp] theorem raiseFault_waiting (c : FaultCause) (op : Word) : (raiseFault c op s).waiting = s.waiting := rfl
@[simp] theorem raiseFault_host (c : FaultCause) (op : Word) : (raiseFault c op s).host = s.host := rfl

@[simp] theorem signalExit_v : (signalExit s).v = s.v := rfl
@[simp] theorem signalExit_pc : (signalExit s).pc = s.pc := rfl
@[simp] theorem signalExit_i : (signalExit s).i = s.i := rfl
@[simp] theorem signalExit_sp : (signalExit s).sp = s.sp := rfl
@[simp] theorem signalExit_stack : (signalExit s).stack = s.stack := rfl
@[simp] theorem signalExit_dt : (signalExit s).dt = s.dt := rfl
@[simp] theorem signalExit_st : (signalExit s).st = s.st := rfl
@[simp] theorem signalExit_mem : (signalExit s).mem = s.mem := rfl
@[simp] theorem signalExit_disp : (signalExit s).disp = s.disp := rfl
@[simp] theorem signalExit_status : (signalExit s).status = .exited := rfl
@[simp] theorem signalExit_fcause : (signalExit s).fcause = s.fcause := rfl
@[simp] theorem signalExit_fopcode : (signalExit s).fopcode = s.fopcode := rfl
@[simp] theorem signalExit_fpc : (signalExit s).fpc = s.fpc := rfl
@[simp] theorem signalExit_waiting : (signalExit s).waiting = s.waiting := rfl
@[simp] theorem signalExit_host : (signalExit s).host = s.host := rfl

@[simp] theorem timerTick_v : (timerTick s).v = s.v := rfl
@[simp] theorem timerTick_pc : (timerTick s).pc = s.pc := rfl
@[simp] theorem timerTick_i : (timerTick s).i = s.i := rfl
@[simp] theorem timerTick_sp : (timerTick s).sp = s.sp := rfl
@[simp] theorem timerTick_stack : (timerTick s).stack = s.stack := rfl
@[simp] theorem timerTick_dt : (timerTick s).dt = countDown s.dt := rfl
@[simp] theorem timerTick_st : (timerTick s).st = countDown s.st := rfl
@[simp] theorem timerTick_mem : (timerTick s).mem = s.mem := rfl
@[simp] theorem timerTick_disp : (timerTick s).disp = s.disp := rfl
@[simp] theorem timerTick_status : (timerTick s).status = s.status := rfl
@[simp] theorem timerTick_fcause : (timerTick s).fcause = s.fcause := rfl
@[simp] theorem timerTick_fopcode : (timerTick s).fopcode = s.fopcode := rfl
@[simp] theorem timerTick_fpc : (timerTick s).fpc = s.fpc := rfl
@[simp] theorem timerTick_waiting : (timerTick s).waiting = s.waiting := rfl
@[simp] theorem timerTick_host : (timerTick s).host = s.host := rfl

@[simp] theorem markDisplayRead_v : (markDisplayRead s).v = s.v := rfl
@[simp] theorem markDisplayRead_pc : (markDisplayRead s).pc = s.pc := rfl
@[simp] theorem markDisplayRead_i : (markDisplayRead s).i = s.i := rfl
@[simp] theorem markDisplayRead_sp : (markDisplayRead s).sp = s.sp := rfl
@[simp] theorem markDisplayRead_stack : (markDisplayRead s).stack = s.stack := rfl
@[simp] theorem markDisplayRead_dt : (markDisplayRead s).dt = s.dt := rfl
@[simp] theorem markDisplayRead_st : (markDisplayRead s).st = s.st := rfl
@[simp] theorem markDisplayRead_mem : (markDisplayRead s).mem = s.mem := rfl
@[simp] theorem markDisplayRead_disp : (markDisplayRead s).disp = s.disp.markRead := rfl
@[simp] theorem markDisplayRead_status : (markDisplayRead s).status = s.status := rfl
@[simp] theorem markDisplayRead_fcause : (markDisplayRead s).fcause = s.fcause := rfl
@[simp] theorem markDisplayRead_fopcode : (markDisplayRead s).fopcode = s.fopcode := rfl
@[simp] theorem markDisplayRead_fpc : (markDisplayRead s).fpc = s.fpc := rfl
@[simp] theorem markDisplayRead_waiting : (markDisplayRead s).waiting = s.waiting := rfl
@[simp] theorem markDisplayRead_host : (markDisplayRead s).host = s.host := rfl

/-! ### Reading a register after an update -/

@[simp] theorem getV_setV_same (x : RegIdx) (b : Byte) : (s.setV x b).getV x = b := by
  simp [State.getV, State.setV]

theorem getV_setV_other {x r : RegIdx} (b : Byte) (h : r ≠ x) : (s.setV x b).getV r = s.getV r := by
  have hn : x.toNat ≠ r.toNat := fun e => h (BitVec.eq_of_toNat_eq e.symm)
  simp [State.getV, State.setV, hn]

/-- A register write read back: the new value at `x`, the old one elsewhere. -/
theorem getV_setV (x r : RegIdx) (b : Byte) : (s.setV x b).getV r = if r = x then b else s.getV r := by
  by_cases h : r = x
  · subst h; simp
  · simp [h, getV_setV_other s b h]

@[simp] theorem setPc_getV (t : Word) (r : RegIdx) : (s.setPc t).getV r = s.getV r := rfl
@[simp] theorem advance_getV (r : RegIdx) : (s.advance).getV r = s.getV r := rfl
@[simp] theorem skipIf_getV (c : Bool) (r : RegIdx) : (s.skipIf c).getV r = s.getV r := rfl
@[simp] theorem setHost_getV (h : HostSide) (r : RegIdx) : (s.setHost h).getV r = s.getV r := rfl
@[simp] theorem withDisplay_getV (d : Display) (r : RegIdx) : (s.withDisplay d).getV r = s.getV r := rfl
@[simp] theorem raiseFault_getV (c : FaultCause) (op : Word) (r : RegIdx) : (raiseFault c op s).getV r = s.getV r := rfl
@[simp] theorem signalExit_getV (r : RegIdx) : (signalExit s).getV r = s.getV r := rfl
@[simp] theorem timerTick_getV (r : RegIdx) : (timerTick s).getV r = s.getV r := rfl
@[simp] theorem markDisplayRead_getV (r : RegIdx) : (markDisplayRead s).getV r = s.getV r := rfl

/-- A flagged write read back: `VF` holds the flag whatever `x` is; `x` holds the result unless it is `VF` (R12). -/
theorem getV_setResultFlag (x r : RegIdx) (b : Byte) (f : Bool) :
    (s.setResultFlag x b f).getV r = if r = vf then flagByte f else if r = x then b else s.getV r := by
  simp [State.setResultFlag, getV_setV]

@[simp] theorem regsOf_getElem (f : Fin 16 → Byte) (r : Nat) (h : r < 16) : (regsOf f)[r] = f ⟨r, h⟩ := by
  simp [regsOf]

/-- A block load read back (R166). -/
theorem getV_loadBlock (x r : RegIdx) :
    (s.loadBlock x).getV r = if r.toNat ≤ x.toNat then Memory.read s.mem (s.i.toNat + r.toNat) else s.getV r := by
  simp [State.loadBlock, State.getV, blockLen, State.ea]

end Sys2Proof.Machine
end

