-- ==== Sys2Proof/Laws/Ops.lean ====
section
/-! SUPPORT. What the shared operations and a step can do, said once. -/

namespace Sys2Proof.Machine

/-! ### The stack (R16, R17) -/

theorem push_ok {s : State} (a : Addr) (h : s.sp.toNat < 16) :
    push a s = .ok { s with sp := s.sp + 1#5, stack := s.stack.set s.sp.toNat a h } := by simp [push, h]

theorem push_full {s : State} (a : Addr) (h : s.sp = 16#5) : push a s = .error .overflow := by simp [push, h]

theorem push_illegal {s : State} (a : Addr) (h : 16 < s.sp.toNat) : push a s = .error .illegal := by
  have h1 : ¬ s.sp.toNat < 16 := by omega
  have h2 : s.sp ≠ 16#5 := fun e => by simp [e] at h
  simp [push, h1, h2]

/-- A push that completes found a free slot, and did only this. -/
theorem push_inv {s t : State} {a : Addr} (h : push a s = .ok t) :
    ∃ hs : s.sp.toNat < 16, t = { s with sp := s.sp + 1#5, stack := s.stack.set s.sp.toNat a hs } := by
  unfold push at h
  split at h
  · rename_i hs; exact ⟨hs, (Except.ok.inj h).symm⟩
  · split at h <;> cases h

theorem pop_ok {s : State} (h0 : s.sp ≠ 0#5) (h : s.sp.toNat - 1 < 16) :
    pop s = .ok (s.stack[s.sp.toNat - 1]'h, { s with sp := s.sp - 1#5 }) := by simp [pop, h0, h]

theorem pop_empty {s : State} (h : s.sp = 0#5) : pop s = .error .underflow := by simp [pop, h]

theorem pop_illegal {s : State} (h : 16 < s.sp.toNat) : pop s = .error .illegal := by
  have h0 : s.sp ≠ 0#5 := fun e => by simp [e] at h
  have h1 : ¬ s.sp.toNat - 1 < 16 := by omega
  simp only [pop, h0, if_false, h1, dif_neg, not_false_eq_true]

/-- A pop that completes found a live slot, and did only this. -/
theorem pop_inv {s t : State} {a : Addr} (h : pop s = .ok (a, t)) :
    s.sp ≠ 0#5 ∧ ∃ hs : s.sp.toNat - 1 < 16, a = s.stack[s.sp.toNat - 1]'hs ∧ t = { s with sp := s.sp - 1#5 } := by
  unfold pop at h
  split at h
  · cases h
  · rename_i h0
    split at h
    · rename_i hs
      cases h
      exact ⟨h0, hs, rfl, rfl⟩
    · cases h

/-! ### Fetch (R61) -/

theorem fetchOpcode_inRange {s : State} (h : s.pc.toNat ≤ 0xFFE) :
    s.fetchOpcode = some (opcodeOfBytes (Memory.read s.mem s.pc.toNat) (Memory.read s.mem (s.pc.toNat + 1))) := by
  have : s.pc.toNat + 2 ≤ Config.memSize := by unfold Config.memSize; omega
  simp [State.fetchOpcode, inRange, this]

theorem fetchOpcode_above {s : State} (h : 0xFFE < s.pc.toNat) : s.fetchOpcode = none := by
  have : ¬ s.pc.toNat + 2 ≤ Config.memSize := by unfold Config.memSize; omega
  simp [State.fetchOpcode, inRange, this]

/-- A fetch that completes found `PC` at most 0xFFE. -/
theorem pc_of_fetchOpcode {s : State} {op : Word} (h : s.fetchOpcode = some op) : s.pc.toNat ≤ 0xFFE := by
  by_contra hn
  rw [fetchOpcode_above (by omega)] at h
  cases h

/-! ### The host's answers (R217 to R219) -/

theorem randByte_listed {h : HostSide} {b : Byte} {rest : List Byte} (e : h.randBytes = b :: rest) :
    h.randByte = (b, { h with randBytes := rest }) := by simp [HostSide.randByte, e]

theorem keyState_listed {h : HostSide} {down : List Byte} {rest : List (List Byte)} (c : Byte)
    (e : h.keysDown = down :: rest) : h.keyState c = (down.contains c, { h with keysDown := rest }) := by
  simp [HostSide.keyState, e]

theorem keyWait_listed {h : HostSide} {c : Option Byte} {rest : List (Option Byte)} (e : h.keyCodes = c :: rest) :
    h.keyWait = (c, { h with keyCodes := rest }) := by simp [HostSide.keyWait, e]

/-- Where no answer is listed a draw takes one free answer and counts it. -/
theorem randByte_unlisted {h : HostSide} (e : h.randBytes = []) :
    h.randByte = (Config.randByte h.drawn, { h with drawn := h.drawn + 1 }) := by simp [HostSide.randByte, e]

theorem keyState_unlisted {h : HostSide} (c : Byte) (e : h.keysDown = []) :
    h.keyState c = (Config.keyDown h.drawn c, { h with drawn := h.drawn + 1 }) := by simp [HostSide.keyState, e]

theorem keyWait_unlisted {h : HostSide} (e : h.keyCodes = []) :
    h.keyWait = (Config.keyCode h.drawn, { h with drawn := h.drawn + 1 }) := by simp [HostSide.keyWait, e]

/-! No answer of the host changes what it will do next. -/

@[simp] theorem randByte_schedule (h : HostSide) : h.randByte.2.schedule = h.schedule := by
  unfold HostSide.randByte; split <;> rfl

@[simp] theorem keyState_schedule (h : HostSide) (c : Byte) : (h.keyState c).2.schedule = h.schedule := by
  unfold HostSide.keyState; split <;> rfl

@[simp] theorem keyWait_schedule (h : HostSide) : h.keyWait.2.schedule = h.schedule := by
  unfold HostSide.keyWait; split <;> rfl

/-- A moment of the wait changes the general registers, PC, the wait and the host's side only. -/
theorem keyWaitMoment_frame (x : RegIdx) (s : State) : keyWaitMoment x s =
    { s with v := (keyWaitMoment x s).v, pc := (keyWaitMoment x s).pc, waiting := (keyWaitMoment x s).waiting,
             host := s.host.keyWait.2 } := by
  unfold keyWaitMoment
  rcases s.host.keyWait with ⟨_ | c, h⟩ <;> rfl

@[simp] theorem keyWaitMoment_dt (x : RegIdx) (s : State) : (keyWaitMoment x s).dt = s.dt := by
  rw [keyWaitMoment_frame]

@[simp] theorem keyWaitMoment_st (x : RegIdx) (s : State) : (keyWaitMoment x s).st = s.st := by
  rw [keyWaitMoment_frame]

@[simp] theorem keyWaitMoment_mem (x : RegIdx) (s : State) : (keyWaitMoment x s).mem = s.mem := by
  rw [keyWaitMoment_frame]

@[simp] theorem keyWaitMoment_disp (x : RegIdx) (s : State) : (keyWaitMoment x s).disp = s.disp := by
  rw [keyWaitMoment_frame]

/-- A moment of the wait at which the host answers (R154). -/
theorem keyWaitMoment_answered {s : State} {c : Byte} {h : HostSide} (x : RegIdx) (e : s.host.keyWait = (some c, h)) :
    keyWaitMoment x s = { ((s.setV x c).advance.setHost h) with waiting := none } := by simp [keyWaitMoment, e]

/-- A moment of the wait at which the host has not answered (R218). -/
theorem keyWaitMoment_unanswered {s : State} {h : HostSide} (x : RegIdx) (e : s.host.keyWait = (none, h)) :
    keyWaitMoment x s = { (s.setHost h) with waiting := some x } := by simp [keyWaitMoment, e]

/-! ### Timers (R214) -/

/-- A count-down step as a number: one less, no lower than 0. -/
theorem countDown_toNat (t : Byte) : (countDown t).toNat = t.toNat - 1 := by
  by_cases h : t = 0#8
  · simp [countDown, h]
  · have h0 : t.toNat ≠ 0 := fun e => h (BitVec.eq_of_toNat_eq e)
    have hl := t.isLt
    simp only [countDown, h, if_false, BitVec.toNat_sub, BitVec.toNat_ofNat]
    omega

/-! ### One step (R4, R69) -/

/-- While a CPU tick waits for its key a step is one moment of that wait. -/
theorem step_waiting {s : State} {x : RegIdx} (h : s.waiting = some x) : step s = .next (keyWaitMoment x s) := by
  simp [step, transact, h]

/-- Otherwise a step is the host's next transaction. -/
theorem step_free {s : State} (h : s.waiting = none) :
    step s = perform s.host.take.1 (s.setHost s.host.take.2) := by simp [step, transact, h]

/-- A step whose transaction is a CPU tick. -/
theorem step_tick {s : State} (hw : s.waiting = none) (ht : s.host.take.1 = .cpuTick) :
    step s = cpuTick (s.setHost s.host.take.2) := by rw [step_free hw, ht]; rfl

theorem cpuTick_stopped {s : State} (h : s.status ≠ .running) : cpuTick s = .next s := by
  unfold cpuTick; cases hs : s.status <;> simp_all

theorem cpuTick_noFetch {s : State} (hr : s.status = .running) (hf : s.fetchOpcode = none) :
    cpuTick s = .next (raiseFault .addressFault 0 s) := by simp [cpuTick, hr, hf]

theorem cpuTick_reserved {s : State} {op : Word} (hr : s.status = .running) (hf : s.fetchOpcode = some op)
    (hd : decode op = none) : cpuTick s = .next (raiseFault .decodeFault op s) := by simp [cpuTick, hr, hf, hd]

theorem cpuTick_decoded {s : State} {op : Word} {i : Instr} (hr : s.status = .running)
    (hf : s.fetchOpcode = some op) (hd : decode op = some i) : cpuTick s = exec i s := by
  simp [cpuTick, hr, hf, hd]

/-- Everything a CPU tick can be. -/
theorem cpuTick_cases (s : State) :
    (s.status ≠ .running ∧ cpuTick s = .next s) ∨
    (s.status = .running ∧ s.fetchOpcode = none ∧ cpuTick s = .next (raiseFault .addressFault 0 s)) ∨
    (∃ op, s.status = .running ∧ s.fetchOpcode = some op ∧ decode op = none ∧
      cpuTick s = .next (raiseFault .decodeFault op s)) ∨
    (∃ op i, s.status = .running ∧ s.fetchOpcode = some op ∧ decode op = some i ∧ cpuTick s = exec i s) := by
  by_cases hr : s.status = .running
  · cases hf : s.fetchOpcode with
    | none => exact .inr (.inl ⟨hr, rfl, cpuTick_noFetch hr hf⟩)
    | some op =>
      cases hd : decode op with
      | none => exact .inr (.inr (.inl ⟨op, hr, rfl, hd, cpuTick_reserved hr hf hd⟩))
      | some i => exact .inr (.inr (.inr ⟨op, i, hr, rfl, hd, cpuTick_decoded hr hf hd⟩))
  · exact .inl ⟨hr, cpuTick_stopped hr⟩

/-- An empty schedule is a CPU tick, and stays empty. -/
theorem take_empty {h : HostSide} (e : h.schedule = []) : h.take = (.cpuTick, h) := by simp [HostSide.take, e]

theorem take_cons {h : HostSide} {t : Transaction} {rest : List Transaction} (e : h.schedule = t :: rest) :
    h.take = (t, { h with schedule := rest }) := by simp [HostSide.take, e]

end Sys2Proof.Machine
end

