-- ==== Sys2Proof/Laws/Exec.lean ====
section
/-! SUPPORT. The instructions that can raise a fault in their execute stage: when each completes, when it faults, and
that there is no third way. -/

namespace Sys2Proof.Machine

theorem inRange_iff {a n : Nat} : inRange a n = true ↔ a + n ≤ 4096 := decide_eq_true_iff

theorem inRange_false_iff {a n : Nat} : inRange a n = false ↔ 4096 < a + n :=
  decide_eq_false_iff_not.trans Nat.not_le

/-- The loads of R231 and R232. -/
theorem loadAccepted_iff {base len : Nat} : loadAccepted base len = true ↔ 240 ≤ base ∧ base + len ≤ 4096 := by
  unfold loadAccepted
  rw [Bool.and_eq_true, decide_eq_true_iff, decide_eq_true_iff]
  exact Iff.rfl

theorem fontOf_length (font : Option (Vector Byte 240)) : (fontOf font).length = 240 := by
  cases font <;> simp [fontOf]

@[simp] theorem ea_zero (s : State) : s.ea 0 = s.i.toNat := rfl

theorem ea_eq (s : State) (k : Nat) : s.ea k = s.i.toNat + k := rfl

@[simp] theorem bcdDigits_length (b : Byte) : (bcdDigits b).length = 3 := rfl

@[simp] theorem regBlock_length (s : State) (x : RegIdx) : (s.regBlock x).length = x.toNat + 1 := by
  simp [State.regBlock, blockLen]

/-- The register block, register by register (R165). -/
theorem regBlock_getElem (s : State) (x r : RegIdx) (h : r.toNat < (s.regBlock x).length) :
    (s.regBlock x)[r.toNat] = s.getV r := by
  simp [State.regBlock]

/-! ### Stores from `I` up (R164, R165) -/

theorem storeAtIndex_ok {s : State} {bytes : List Byte} (i : Instr) (h : s.i.toNat + bytes.length ≤ 4096) :
    storeAtIndex bytes i s = .next { s.advance with mem := Memory.writeList s.mem s.i.toNat bytes } := by
  have : inRange (s.ea 0) bytes.length = true := inRange_iff.mpr h
  rw [storeAtIndex, this]; rfl

theorem storeAtIndex_fault {s : State} {bytes : List Byte} (i : Instr) (h : 4096 < s.i.toNat + bytes.length) :
    storeAtIndex bytes i s = .next (raiseFault .addressFault (encode i) s) := by
  have : inRange (s.ea 0) bytes.length = false := inRange_false_iff.mpr h
  rw [storeAtIndex, this]; rfl

/-- A store completes or faults, and does only this. -/
theorem storeAtIndex_cases (bytes : List Byte) (i : Instr) (s : State) :
    (s.i.toNat + bytes.length ≤ 4096 ∧
      storeAtIndex bytes i s = .next { s.advance with mem := Memory.writeList s.mem s.i.toNat bytes }) ∨
    (4096 < s.i.toNat + bytes.length ∧ storeAtIndex bytes i s = .next (raiseFault .addressFault (encode i) s)) := by
  by_cases h : s.i.toNat + bytes.length ≤ 4096
  · exact .inl ⟨h, storeAtIndex_ok i h⟩
  · exact .inr ⟨by omega, storeAtIndex_fault i (by omega)⟩

/-! ### The block load (R166) -/

theorem execLdBlock_ok {s : State} {x : RegIdx} (h : s.i.toNat + x.toNat < 4096) :
    execLdBlock x s = .next (s.loadBlock x).advance := by
  have : inRange (s.ea 0) (blockLen x) = true := inRange_iff.mpr (by simp only [ea_zero, blockLen]; omega)
  rw [execLdBlock, this]; rfl

theorem execLdBlock_fault {s : State} {x : RegIdx} (h : 4096 ≤ s.i.toNat + x.toNat) :
    execLdBlock x s = .next (raiseFault .addressFault (encode (.ldBlock x)) s) := by
  have : inRange (s.ea 0) (blockLen x) = false := inRange_false_iff.mpr (by simp only [ea_zero, blockLen]; omega)
  rw [execLdBlock, this]; rfl

/-! ### The draw (R140) -/

theorem execDrw_ok {s : State} {x y : RegIdx} {n : BitVec 4} (h : s.i.toNat + spriteLen s.disp.mode n ≤ 4096) :
    execDrw x y n s = .next { ((s.setV vf (flagByte (s.drawn x y n).1)).advance) with disp := (s.drawn x y n).2 } := by
  have : inRange (s.ea 0) (spriteLen s.disp.mode n) = true := inRange_iff.mpr h
  rw [execDrw, this]; rfl

theorem execDrw_fault {s : State} {x y : RegIdx} {n : BitVec 4} (h : 4096 < s.i.toNat + spriteLen s.disp.mode n) :
    execDrw x y n s = .next (raiseFault .addressFault (encode (.drw x y n)) s) := by
  have : inRange (s.ea 0) (spriteLen s.disp.mode n) = false := inRange_false_iff.mpr h
  rw [execDrw, this]; rfl

/-! ### The call and the return (R102, R111) -/

/-- A call that answers a next state pushed and jumped, or overflowed. -/
theorem execCall_inv {nnn : Addr} {s t : State} (h : execCall nnn s = .next t) :
    (∃ hs : s.sp.toNat < 16, t = { s with
      sp := s.sp + 1#5, stack := s.stack.set s.sp.toNat (s.pc.extractLsb' 0 12) hs, pc := targetOf nnn }) ∨
    (s.sp = 16#5 ∧ t = raiseFault .stackOverflow (encode (.call nnn)) s) := by
  by_cases h1 : s.sp.toNat < 16
  · rw [execCall, push_ok _ h1] at h; cases h; exact .inl ⟨h1, rfl⟩
  · by_cases h2 : s.sp = 16#5
    · rw [execCall, push_full _ h2] at h; cases h; exact .inr ⟨h2, rfl⟩
    · have h3 : 16 < s.sp.toNat := by
        have : s.sp.toNat ≠ 16 := fun e => h2 (BitVec.eq_of_toNat_eq e)
        omega
      rw [execCall, push_illegal _ h3] at h; cases h

/-- A return that answers a next state popped and went on after the call, or underflowed. -/
theorem execRet_inv {s t : State} (h : execRet s = .next t) :
    (s.sp ≠ 0#5 ∧ ∃ hs : s.sp.toNat - 1 < 16, t = { s with
      sp := s.sp - 1#5, pc := returnTarget (s.stack[s.sp.toNat - 1]'hs) }) ∨
    (s.sp = 0#5 ∧ t = raiseFault .stackUnderflow (encode .ret) s) := by
  by_cases h0 : s.sp = 0#5
  · rw [execRet, pop_empty h0] at h; cases h; exact .inr ⟨h0, rfl⟩
  · by_cases h1 : s.sp.toNat - 1 < 16
    · rw [execRet, pop_ok h0 h1] at h; cases h; exact .inl ⟨h0, h1, rfl⟩
    · rw [execRet, pop_illegal (by omega)] at h; cases h

/-! ### The memory and draw instructions, inverted -/

theorem execLdB_inv {x : RegIdx} {s t : State} (h : execLdB x s = .next t) :
    (s.i.toNat + 2 < 4096 ∧
      t = { s.advance with mem := Memory.writeList s.mem s.i.toNat (bcdDigits (s.getV x)) }) ∨
    (4096 ≤ s.i.toNat + 2 ∧ t = raiseFault .addressFault (encode (.ldB x)) s) := by
  rcases storeAtIndex_cases (bcdDigits (s.getV x)) (.ldB x) s with ⟨h1, h2⟩ | ⟨h1, h2⟩ <;>
    rw [execLdB, h2] at h <;> cases h <;> simp only [bcdDigits_length] at h1
  · exact .inl ⟨by omega, rfl⟩
  · exact .inr ⟨by omega, rfl⟩

theorem execStBlock_inv {x : RegIdx} {s t : State} (h : execStBlock x s = .next t) :
    (s.i.toNat + x.toNat < 4096 ∧ t = { s.advance with mem := Memory.writeList s.mem s.i.toNat (s.regBlock x) }) ∨
    (4096 ≤ s.i.toNat + x.toNat ∧ t = raiseFault .addressFault (encode (.stBlock x)) s) := by
  rcases storeAtIndex_cases (s.regBlock x) (.stBlock x) s with ⟨h1, h2⟩ | ⟨h1, h2⟩ <;>
    rw [execStBlock, h2] at h <;> cases h <;> simp only [regBlock_length] at h1
  · exact .inl ⟨by omega, rfl⟩
  · exact .inr ⟨by omega, rfl⟩

theorem execLdBlock_inv {x : RegIdx} {s t : State} (h : execLdBlock x s = .next t) :
    (s.i.toNat + x.toNat < 4096 ∧ t = (s.loadBlock x).advance) ∨
    (4096 ≤ s.i.toNat + x.toNat ∧ t = raiseFault .addressFault (encode (.ldBlock x)) s) := by
  by_cases h1 : s.i.toNat + x.toNat < 4096
  · rw [execLdBlock_ok h1] at h; cases h; exact .inl ⟨h1, rfl⟩
  · rw [execLdBlock_fault (by omega)] at h; cases h; exact .inr ⟨by omega, rfl⟩

theorem execDrw_inv {x y : RegIdx} {n : BitVec 4} {s t : State} (h : execDrw x y n s = .next t) :
    (s.i.toNat + spriteLen s.disp.mode n ≤ 4096 ∧
      t = { ((s.setV vf (flagByte (s.drawn x y n).1)).advance) with disp := (s.drawn x y n).2 }) ∨
    (4096 < s.i.toNat + spriteLen s.disp.mode n ∧ t = raiseFault .addressFault (encode (.drw x y n)) s) := by
  by_cases h1 : s.i.toNat + spriteLen s.disp.mode n ≤ 4096
  · rw [execDrw_ok h1] at h; cases h; exact .inl ⟨h1, rfl⟩
  · rw [execDrw_fault (by omega)] at h; cases h; exact .inr ⟨by omega, rfl⟩

/-- A moment of the wait for a key: the host's answer, or none yet (R218). -/
theorem keyWaitMoment_cases (x : RegIdx) (s : State) :
    (∃ c h, s.host.keyWait = (some c, h) ∧
      keyWaitMoment x s = { ((s.setV x c).advance.setHost h) with waiting := none }) ∨
    (∃ h, s.host.keyWait = (none, h) ∧ keyWaitMoment x s = { (s.setHost h) with waiting := some x }) := by
  cases e : s.host.keyWait with
  | mk a h =>
    cases a with
    | none => exact .inr ⟨h, rfl, keyWaitMoment_unanswered x e⟩
    | some c => exact .inl ⟨c, h, rfl, keyWaitMoment_answered x e⟩

/-! ### All instructions -/

/-- A next state of an instruction is the fault it raised, with nothing else changed, or has the status and the fault
record of the state before, but for the status after EXIT (R200, R206, R212). -/
theorem exec_faults_or_keeps {i : Instr} {s t : State} (h : exec i s = .next t) :
    (∃ c, c ≠ .none ∧ t = raiseFault c (encode i) s) ∨
    ((t.status = s.status ∨ i = .exit) ∧ t.fcause = s.fcause ∧ t.fopcode = s.fopcode ∧ t.fpc = s.fpc) := by
  cases i
  case call =>
    rcases execCall_inv h with ⟨_, rfl⟩ | ⟨_, rfl⟩
    exacts [.inr ⟨.inl rfl, rfl, rfl, rfl⟩, .inl ⟨_, by simp, rfl⟩]
  case ret =>
    rcases execRet_inv h with ⟨_, _, rfl⟩ | ⟨_, rfl⟩
    exacts [.inr ⟨.inl rfl, rfl, rfl, rfl⟩, .inl ⟨_, by simp, rfl⟩]
  case drw =>
    rcases execDrw_inv h with ⟨_, rfl⟩ | ⟨_, rfl⟩
    exacts [.inr ⟨.inl rfl, rfl, rfl, rfl⟩, .inl ⟨_, by simp, rfl⟩]
  case ldB =>
    rcases execLdB_inv h with ⟨_, rfl⟩ | ⟨_, rfl⟩
    exacts [.inr ⟨.inl rfl, rfl, rfl, rfl⟩, .inl ⟨_, by simp, rfl⟩]
  case stBlock =>
    rcases execStBlock_inv h with ⟨_, rfl⟩ | ⟨_, rfl⟩
    exacts [.inr ⟨.inl rfl, rfl, rfl, rfl⟩, .inl ⟨_, by simp, rfl⟩]
  case ldBlock =>
    rcases execLdBlock_inv h with ⟨_, rfl⟩ | ⟨_, rfl⟩
    exacts [.inr ⟨.inl rfl, rfl, rfl, rfl⟩, .inl ⟨_, by simp, rfl⟩]
  case ldVxK x =>
    cases h
    rcases keyWaitMoment_cases x s with ⟨_, _, -, e⟩ | ⟨_, -, e⟩ <;> rw [e] <;> exact .inr ⟨.inl rfl, rfl, rfl, rfl⟩
  case exit => cases h; exact .inr ⟨.inr rfl, rfl, rfl, rfl⟩
  all_goals (cases h; exact .inr ⟨.inl rfl, rfl, rfl, rfl⟩)

/-- With a legal `SP` every instruction answers a next state. -/
theorem exec_answers {s : State} (i : Instr) (h : s.sp.toNat ≤ 16) : ∃ t, exec i s = .next t := by
  cases i
  case call nnn =>
    by_cases h1 : s.sp.toNat < 16
    · exact ⟨_, by rw [exec, execCall, push_ok _ h1]⟩
    · exact ⟨_, by rw [exec, execCall, push_full _ (BitVec.eq_of_toNat_eq (by simp; omega))]; rfl⟩
  case ret =>
    by_cases h1 : s.sp = 0#5
    · exact ⟨_, by rw [exec, execRet, pop_empty h1]; rfl⟩
    · exact ⟨_, by rw [exec, execRet, pop_ok h1 (by omega)]⟩
  case drw => simp only [exec, execDrw, raiseIn]; split_ifs <;> exact ⟨_, rfl⟩
  case ldB => simp only [exec, execLdB, storeAtIndex, raiseIn]; split_ifs <;> exact ⟨_, rfl⟩
  case stBlock => simp only [exec, execStBlock, storeAtIndex, raiseIn]; split_ifs <;> exact ⟨_, rfl⟩
  case ldBlock => simp only [exec, execLdBlock, raiseIn]; split_ifs <;> exact ⟨_, rfl⟩
  all_goals exact ⟨_, rfl⟩

end Sys2Proof.Machine
end

