-- ==== Sys2Proof/Laws/Memory.lean ====
section
/-! SUPPORT. Memory: reading after writing, and that every memory operation keeps the canonical form. -/

namespace Sys2Proof.Machine.Memory

theorem wfFrom_cons {lo k : Nat} {b : Byte} {m : Memory} :
    wfFrom lo ((k, b) :: m) = true ↔ lo ≤ k ∧ k < Config.memSize ∧ b ≠ 0#8 ∧ wfFrom (k + 1) m = true := by
  simp [wfFrom, and_assoc]

theorem wfFrom_mono {lo lo' : Nat} {m : Memory} (h : wfFrom lo m = true) (hl : lo' ≤ lo) : wfFrom lo' m = true := by
  cases m with
  | nil => rfl
  | cons e m =>
    obtain ⟨k, b⟩ := e
    rw [wfFrom_cons] at h ⊢
    exact ⟨hl.trans h.1, h.2⟩

/-- Below its lower bound a canonical memory lists nothing. -/
theorem read_below {lo a : Nat} {m : Memory} (h : wfFrom lo m = true) (ha : a < lo) : read m a = 0#8 := by
  induction m generalizing lo with
  | nil => rfl
  | cons e m ih =>
    obtain ⟨k, b⟩ := e
    rw [wfFrom_cons] at h
    have hne : k ≠ a := by omega
    simp only [read, hne, if_false]
    exact ih h.2.2.2 (by omega)

theorem write_wfFrom {lo a : Nat} {m : Memory} (b : Byte) (h : wfFrom lo m = true) (hl : lo ≤ a)
    (ha : a < Config.memSize) : wfFrom lo (write m a b) = true := by
  induction m generalizing lo with
  | nil =>
    by_cases hb : b = 0#8
    · simp [write, hb, wfFrom]
    · simp [write, hb, wfFrom, hl, ha]
  | cons e m ih =>
    obtain ⟨k, c⟩ := e
    have hk := wfFrom_cons.mp h
    simp only [write]
    split_ifs with h1 h2 h3 h4
    · exact h
    · exact wfFrom_cons.mpr ⟨hl, ha, h2, wfFrom_cons.mpr ⟨by omega, hk.2⟩⟩
    · exact wfFrom_mono hk.2.2.2 (by omega)
    · subst h3; exact wfFrom_cons.mpr ⟨hl, ha, h4, hk.2.2.2⟩
    · exact wfFrom_cons.mpr ⟨hk.1, hk.2.1, hk.2.2.1, ih hk.2.2.2 (by omega)⟩

/-- A write inside memory keeps the canonical form. -/
theorem write_wf {a : Nat} {m : Memory} (b : Byte) (h : wf m = true) (ha : a < Config.memSize) :
    wf (write m a b) = true := write_wfFrom b h (Nat.zero_le _) ha

/-- A block write inside memory keeps the canonical form. -/
theorem writeList_wf {a : Nat} {m : Memory} (bs : List Byte) (h : wf m = true)
    (ha : a + bs.length ≤ Config.memSize) : wf (writeList m a bs) = true := by
  induction bs generalizing a m with
  | nil => exact h
  | cons b bs ih =>
    simp only [List.length_cons] at ha
    exact ih (write_wf b h (by omega)) (by omega)

/-- A write leaves every other address alone. -/
theorem read_write_other {a c : Nat} (m : Memory) (b : Byte) (hne : c ≠ a) : read (write m a b) c = read m c := by
  induction m with
  | nil => by_cases hb : b = 0#8 <;> simp [write, read, hb, hne.symm]
  | cons e m ih =>
    obtain ⟨k, d⟩ := e
    simp only [write]
    split_ifs with h1 h2 h3 h4
    · rfl
    · simp [read, hne.symm]
    · subst h3; simp [read, hne.symm]
    · subst h3; simp [read, hne.symm]
    · simp only [read]; rw [ih]

theorem read_write_same_from {lo a : Nat} {m : Memory} (b : Byte) (h : wfFrom lo m = true) :
    read (write m a b) a = b := by
  induction m generalizing lo with
  | nil => by_cases hb : b = 0#8 <;> simp [write, read, hb]
  | cons e m ih =>
    obtain ⟨k, d⟩ := e
    have hk := wfFrom_cons.mp h
    simp only [write]
    split_ifs with h1 h2 h3 h4
    · have hne : k ≠ a := by omega
      rw [h2]; simp only [read, hne, if_false]
      exact read_below hk.2.2.2 (by omega)
    · simp [read]
    · rw [h4, h3]; exact read_below hk.2.2.2 (by omega)
    · simp [read]
    · have hne : k ≠ a := by omega
      simp only [read, hne, if_false]; exact ih hk.2.2.2

/-- A canonical memory reads back what was written. -/
theorem read_write_same {a : Nat} {m : Memory} (b : Byte) (h : wf m = true) : read (write m a b) a = b :=
  read_write_same_from b h

/-- A block write leaves every address outside the block alone. -/
theorem read_writeList_outside {a c : Nat} (m : Memory) (bs : List Byte) (h : c < a ∨ a + bs.length ≤ c) :
    read (writeList m a bs) c = read m c := by
  induction bs generalizing a m with
  | nil => rfl
  | cons b bs ih =>
    simp only [List.length_cons] at h
    simp only [writeList]
    rw [ih _ (by omega), read_write_other _ _ (by omega)]

/-- A block write reads back byte by byte. -/
theorem read_writeList_inside {a k : Nat} {m : Memory} {bs : List Byte} (h : wf m = true)
    (ha : a + bs.length ≤ Config.memSize) (hk : k < bs.length) :
    read (writeList m a bs) (a + k) = bs[k] := by
  induction bs generalizing a m k with
  | nil => simp at hk
  | cons b bs ih =>
    simp only [List.length_cons] at ha hk
    simp only [writeList]
    cases k with
    | zero => rw [read_writeList_outside _ _ (by omega)]; simpa using read_write_same b h
    | succ k =>
      have := ih (k := k) (a := a + 1) (write_wf (a := a) b h (by omega)) (by omega) (Nat.lt_of_succ_lt_succ hk)
      rw [show a + (k + 1) = a + 1 + k by omega, this]; rfl

/-- A block write read back at any address: the block's bytes where it lies, the old bytes elsewhere. -/
theorem read_writeList {a : Nat} {m : Memory} {bs : List Byte} (h : wf m = true)
    (ha : a + bs.length ≤ Config.memSize) (c : Nat) :
    read (writeList m a bs) c = if a ≤ c ∧ c < a + bs.length then bs.getD (c - a) 0#8 else read m c := by
  split
  · rename_i hc
    have hk : c - a < bs.length := by omega
    have hr := read_writeList_inside h ha hk
    rwa [show a + (c - a) = c by omega, ← List.getD_eq_getElem _ 0#8 hk] at hr
  · exact read_writeList_outside m bs (by omega)

/-- Canonical memories that read alike are equal: equal memories are equal data. -/
theorem wfFrom_ext {lo : Nat} {m n : Memory} (hm : wfFrom lo m = true) (hn : wfFrom lo n = true)
    (h : ∀ a, read m a = read n a) : m = n := by
  induction m generalizing lo n with
  | nil =>
    cases n with
    | nil => rfl
    | cons e n =>
      obtain ⟨k, b⟩ := e
      have := h k
      simp [read] at this
      exact absurd this.symm (wfFrom_cons.mp hn).2.2.1
  | cons e m ih =>
    obtain ⟨k, b⟩ := e
    have hk := wfFrom_cons.mp hm
    cases n with
    | nil =>
      have := h k
      simp [read] at this
      exact absurd this hk.2.2.1
    | cons e' n =>
      obtain ⟨k', b'⟩ := e'
      have hk' := wfFrom_cons.mp hn
      have hkk : k = k' := by
        rcases Nat.lt_trichotomy k k' with hlt | heq | hgt
        · have := h k
          rw [read_below (lo := k') (wfFrom_cons.mpr ⟨Nat.le_refl _, hk'.2⟩) hlt] at this
          simp [read] at this
          exact absurd this hk.2.2.1
        · exact heq
        · have := h k'
          rw [read_below (lo := k) (wfFrom_cons.mpr ⟨Nat.le_refl _, hk.2⟩) hgt] at this
          simp [read] at this
          exact absurd this.symm hk'.2.2.1
      subst hkk
      have hb : b = b' := by simpa [read] using h k
      subst hb
      congr 1
      refine ih hk.2.2.2 hk'.2.2.2 fun a => ?_
      by_cases ha : a = k
      · subst ha; rw [read_below hk.2.2.2 (by omega), read_below hk'.2.2.2 (by omega)]
      · simpa [read, Ne.symm ha] using h a

theorem wf_ext {m n : Memory} (hm : wf m = true) (hn : wf n = true) (h : ∀ a, read m a = read n a) : m = n :=
  wfFrom_ext hm hn h

@[simp] theorem readList_length (m : Memory) (a n : Nat) : (readList m a n).length = n := by simp [readList]

@[simp] theorem readList_getElem (m : Memory) (a n k : Nat) (h : k < (readList m a n).length) :
    (readList m a n)[k] = read m (a + k) := by simp [readList]

/-- Reset memory is canonical. -/
theorem reset_wf : wf State.reset.mem = true := rfl

end Sys2Proof.Machine.Memory
end

