-- ==== Sys2Proof/Laws/PerInstr.lean ====
section
/-! SUPPORT. Per instruction: its encoding fits its own row of the opcode map (spec 30_encoding.md R65). -/

namespace Sys2Proof.Laws.FitsRow

/-- Some row of the map has the instruction's number and selects its encoding. -/
def Statement (i : Instr) : Prop := ∃ r ∈ opcodeTable, r.num = i.row ∧ r.selects (encode i) = true

/-- A word of format XKK under a mask: the bits of the family and the fixed low byte. -/
theorem and_encXKK_full (f : BitVec 4) (x : RegIdx) (kk : Byte) :
    encXKK f x kk &&& 0xF0FF#16 = encXKK f 0#4 kk := by
  ext i hi
  rw [← BitVec.getLsbD_eq_getElem hi, ← BitVec.getLsbD_eq_getElem hi]
  simp only [BitVec.getLsbD_and, getLsbD_encXKK]
  interval_cases i <;> simp

theorem and_encXKK_fam (f : BitVec 4) (x : RegIdx) (kk : Byte) :
    encXKK f x kk &&& 0xF000#16 = encXKK f 0#4 0#8 := by
  ext i hi
  rw [← BitVec.getLsbD_eq_getElem hi, ← BitVec.getLsbD_eq_getElem hi]
  simp only [BitVec.getLsbD_and, getLsbD_encXKK]
  interval_cases i <;> simp

theorem and_encNNN_fam (f : BitVec 4) (nnn : Addr) : encNNN f nnn &&& 0xF000#16 = encNNN f 0#12 := by
  ext i hi
  rw [← BitVec.getLsbD_eq_getElem hi, ← BitVec.getLsbD_eq_getElem hi]
  simp only [BitVec.getLsbD_and, getLsbD_encNNN]
  interval_cases i <;> simp

theorem and_encXYN_low (f : BitVec 4) (x y : RegIdx) (n : BitVec 4) :
    encXYN f x y n &&& 0xF00F#16 = encXYN f 0#4 0#4 n := by
  ext i hi
  rw [← BitVec.getLsbD_eq_getElem hi, ← BitVec.getLsbD_eq_getElem hi]
  simp only [BitVec.getLsbD_and, getLsbD_encXYN]
  interval_cases i <;> simp

theorem and_encXYN_fam (f : BitVec 4) (x y : RegIdx) (n : BitVec 4) :
    encXYN f x y n &&& 0xF000#16 = encXYN f 0#4 0#4 0#4 := by
  ext i hi
  rw [← BitVec.getLsbD_eq_getElem hi, ← BitVec.getLsbD_eq_getElem hi]
  simp only [BitVec.getLsbD_and, getLsbD_encXYN]
  interval_cases i <;> simp

theorem scd (n : BitVec 4) : Statement (.scd n) :=
  ⟨⟨1, 0xFFF0#16, 0x00C0#16⟩, by decide, rfl, by revert n; decide⟩
theorem cls : Statement (.cls) :=
  ⟨⟨2, 0xFFFF#16, 0x00E0#16⟩, by decide, rfl, by decide⟩
theorem ret : Statement (.ret) :=
  ⟨⟨3, 0xFFFF#16, 0x00EE#16⟩, by decide, rfl, by decide⟩
theorem scr : Statement (.scr) :=
  ⟨⟨4, 0xFFFF#16, 0x00FB#16⟩, by decide, rfl, by decide⟩
theorem scl : Statement (.scl) :=
  ⟨⟨5, 0xFFFF#16, 0x00FC#16⟩, by decide, rfl, by decide⟩
theorem exit : Statement (.exit) :=
  ⟨⟨6, 0xFFFF#16, 0x00FD#16⟩, by decide, rfl, by decide⟩
theorem low : Statement (.low) :=
  ⟨⟨7, 0xFFFF#16, 0x00FE#16⟩, by decide, rfl, by decide⟩
theorem high : Statement (.high) :=
  ⟨⟨8, 0xFFFF#16, 0x00FF#16⟩, by decide, rfl, by decide⟩
theorem jp (nnn : Addr) : Statement (.jp nnn) :=
  ⟨⟨9, 0xF000#16, 0x1000#16⟩, by decide, rfl, by simp only [OpcodeRow.selects, encode]; rw [and_encNNN_fam]; decide⟩
theorem call (nnn : Addr) : Statement (.call nnn) :=
  ⟨⟨10, 0xF000#16, 0x2000#16⟩, by decide, rfl, by simp only [OpcodeRow.selects, encode]; rw [and_encNNN_fam]; decide⟩
theorem seImm (x : RegIdx) (kk : Byte) : Statement (.seImm x kk) :=
  ⟨⟨11, 0xF000#16, 0x3000#16⟩, by decide, rfl, by simp only [OpcodeRow.selects, encode]; rw [and_encXKK_fam]; decide⟩
theorem sneImm (x : RegIdx) (kk : Byte) : Statement (.sneImm x kk) :=
  ⟨⟨12, 0xF000#16, 0x4000#16⟩, by decide, rfl, by simp only [OpcodeRow.selects, encode]; rw [and_encXKK_fam]; decide⟩
theorem seReg (x y : RegIdx) : Statement (.seReg x y) :=
  ⟨⟨13, 0xF00F#16, 0x5000#16⟩, by decide, rfl, by simp only [OpcodeRow.selects, encode]; rw [and_encXYN_low]; decide⟩
theorem ldImm (x : RegIdx) (kk : Byte) : Statement (.ldImm x kk) :=
  ⟨⟨14, 0xF000#16, 0x6000#16⟩, by decide, rfl, by simp only [OpcodeRow.selects, encode]; rw [and_encXKK_fam]; decide⟩
theorem addImm (x : RegIdx) (kk : Byte) : Statement (.addImm x kk) :=
  ⟨⟨15, 0xF000#16, 0x7000#16⟩, by decide, rfl, by simp only [OpcodeRow.selects, encode]; rw [and_encXKK_fam]; decide⟩
theorem ldReg (x y : RegIdx) : Statement (.ldReg x y) :=
  ⟨⟨16, 0xF00F#16, 0x8000#16⟩, by decide, rfl, by simp only [OpcodeRow.selects, encode]; rw [and_encXYN_low]; decide⟩
theorem orReg (x y : RegIdx) : Statement (.orReg x y) :=
  ⟨⟨17, 0xF00F#16, 0x8001#16⟩, by decide, rfl, by simp only [OpcodeRow.selects, encode]; rw [and_encXYN_low]; decide⟩
theorem andReg (x y : RegIdx) : Statement (.andReg x y) :=
  ⟨⟨18, 0xF00F#16, 0x8002#16⟩, by decide, rfl, by simp only [OpcodeRow.selects, encode]; rw [and_encXYN_low]; decide⟩
theorem xorReg (x y : RegIdx) : Statement (.xorReg x y) :=
  ⟨⟨19, 0xF00F#16, 0x8003#16⟩, by decide, rfl, by simp only [OpcodeRow.selects, encode]; rw [and_encXYN_low]; decide⟩
theorem addReg (x y : RegIdx) : Statement (.addReg x y) :=
  ⟨⟨20, 0xF00F#16, 0x8004#16⟩, by decide, rfl, by simp only [OpcodeRow.selects, encode]; rw [and_encXYN_low]; decide⟩
theorem subReg (x y : RegIdx) : Statement (.subReg x y) :=
  ⟨⟨21, 0xF00F#16, 0x8005#16⟩, by decide, rfl, by simp only [OpcodeRow.selects, encode]; rw [and_encXYN_low]; decide⟩
theorem shrReg (x y : RegIdx) : Statement (.shrReg x y) :=
  ⟨⟨22, 0xF00F#16, 0x8006#16⟩, by decide, rfl, by simp only [OpcodeRow.selects, encode]; rw [and_encXYN_low]; decide⟩
theorem subnReg (x y : RegIdx) : Statement (.subnReg x y) :=
  ⟨⟨23, 0xF00F#16, 0x8007#16⟩, by decide, rfl, by simp only [OpcodeRow.selects, encode]; rw [and_encXYN_low]; decide⟩
theorem shlReg (x y : RegIdx) : Statement (.shlReg x y) :=
  ⟨⟨24, 0xF00F#16, 0x800E#16⟩, by decide, rfl, by simp only [OpcodeRow.selects, encode]; rw [and_encXYN_low]; decide⟩
theorem sneReg (x y : RegIdx) : Statement (.sneReg x y) :=
  ⟨⟨25, 0xF00F#16, 0x9000#16⟩, by decide, rfl, by simp only [OpcodeRow.selects, encode]; rw [and_encXYN_low]; decide⟩
theorem ldI (nnn : Addr) : Statement (.ldI nnn) :=
  ⟨⟨26, 0xF000#16, 0xA000#16⟩, by decide, rfl, by simp only [OpcodeRow.selects, encode]; rw [and_encNNN_fam]; decide⟩
theorem jpV0 (nnn : Addr) : Statement (.jpV0 nnn) :=
  ⟨⟨27, 0xF000#16, 0xB000#16⟩, by decide, rfl, by simp only [OpcodeRow.selects, encode]; rw [and_encNNN_fam]; decide⟩
theorem rnd (x : RegIdx) (kk : Byte) : Statement (.rnd x kk) :=
  ⟨⟨28, 0xF000#16, 0xC000#16⟩, by decide, rfl, by simp only [OpcodeRow.selects, encode]; rw [and_encXKK_fam]; decide⟩
theorem drw (x y : RegIdx) (n : BitVec 4) : Statement (.drw x y n) :=
  ⟨⟨29, 0xF000#16, 0xD000#16⟩, by decide, rfl, by simp only [OpcodeRow.selects, encode]; rw [and_encXYN_fam]; decide⟩
theorem skp (x : RegIdx) : Statement (.skp x) :=
  ⟨⟨30, 0xF0FF#16, 0xE09E#16⟩, by decide, rfl, by simp only [OpcodeRow.selects, encode]; rw [and_encXKK_full]; decide⟩
theorem sknp (x : RegIdx) : Statement (.sknp x) :=
  ⟨⟨31, 0xF0FF#16, 0xE0A1#16⟩, by decide, rfl, by simp only [OpcodeRow.selects, encode]; rw [and_encXKK_full]; decide⟩
theorem ldVxDt (x : RegIdx) : Statement (.ldVxDt x) :=
  ⟨⟨32, 0xF0FF#16, 0xF007#16⟩, by decide, rfl, by simp only [OpcodeRow.selects, encode]; rw [and_encXKK_full]; decide⟩
theorem ldVxK (x : RegIdx) : Statement (.ldVxK x) :=
  ⟨⟨33, 0xF0FF#16, 0xF00A#16⟩, by decide, rfl, by simp only [OpcodeRow.selects, encode]; rw [and_encXKK_full]; decide⟩
theorem ldDtVx (x : RegIdx) : Statement (.ldDtVx x) :=
  ⟨⟨34, 0xF0FF#16, 0xF015#16⟩, by decide, rfl, by simp only [OpcodeRow.selects, encode]; rw [and_encXKK_full]; decide⟩
theorem ldStVx (x : RegIdx) : Statement (.ldStVx x) :=
  ⟨⟨35, 0xF0FF#16, 0xF018#16⟩, by decide, rfl, by simp only [OpcodeRow.selects, encode]; rw [and_encXKK_full]; decide⟩
theorem addI (x : RegIdx) : Statement (.addI x) :=
  ⟨⟨36, 0xF0FF#16, 0xF01E#16⟩, by decide, rfl, by simp only [OpcodeRow.selects, encode]; rw [and_encXKK_full]; decide⟩
theorem ldF (x : RegIdx) : Statement (.ldF x) :=
  ⟨⟨37, 0xF0FF#16, 0xF029#16⟩, by decide, rfl, by simp only [OpcodeRow.selects, encode]; rw [and_encXKK_full]; decide⟩
theorem ldHf (x : RegIdx) : Statement (.ldHf x) :=
  ⟨⟨38, 0xF0FF#16, 0xF030#16⟩, by decide, rfl, by simp only [OpcodeRow.selects, encode]; rw [and_encXKK_full]; decide⟩
theorem ldB (x : RegIdx) : Statement (.ldB x) :=
  ⟨⟨39, 0xF0FF#16, 0xF033#16⟩, by decide, rfl, by simp only [OpcodeRow.selects, encode]; rw [and_encXKK_full]; decide⟩
theorem stBlock (x : RegIdx) : Statement (.stBlock x) :=
  ⟨⟨40, 0xF0FF#16, 0xF055#16⟩, by decide, rfl, by simp only [OpcodeRow.selects, encode]; rw [and_encXKK_full]; decide⟩
theorem ldBlock (x : RegIdx) : Statement (.ldBlock x) :=
  ⟨⟨41, 0xF0FF#16, 0xF065#16⟩, by decide, rfl, by simp only [OpcodeRow.selects, encode]; rw [and_encXKK_full]; decide⟩

end Sys2Proof.Laws.FitsRow
end

