-- ==== Sys2Proof/Tests/Slice0.lean ====
section
/-! SUPPORT. Tests. Every expected value is taken from spec 95_test_vectors.md (the vector's id stands in the
comment) or from a worked example of a rule; each runs one step on a small state. -/

namespace Sys2Proof.Tests

open Sys2Proof.Machine

-- One theorem at a time: each is evaluated by the kernel, and many at once take a thread each.
set_option Elab.async false

/-- The state of a vector: `PC = 0x200` and the opcode placed there. -/
def at200 (op : Word) (s : State) : State := placeOpcode op { s with pc := 0x200#16 }

/-- What a step shows of the state after it. -/
def after {α : Type} (s : State) (f : State → α) : Option α :=
  match step s with
  | .next t => some (f t)
  | .fault _ => none
  | .refused _ => none

/-- The fault record and PC. -/
def record (t : State) : Status × Nat × Word × Word × Word := (t.status, t.fcause.code, t.fopcode, t.fpc, t.pc)

/-- The reset state with a row of the display set. -/
def withRow (r : Fin 64) (v : Row) (s : State) : State :=
  { s with disp := { s.disp with fb := s.disp.fb.set r.val v r.isLt } }

def inMode (m : Mode) (s : State) : State := { s with disp := { s.disp with mode := m } }

def markDirty (s : State) : State := { s with disp := { s.disp with dirty := true } }

def withMem (a : Nat) (bs : List Byte) (s : State) : State := { s with mem := Memory.writeList s.mem a bs }

def r0 : State := State.reset

/-! ### Decoding: words written out from the patterns of R65 and section 2.9 of the vectors -/

theorem test_decode_scd : decode 0x00C5#16 = some (.scd 5#4) := by decide
theorem test_decode_cls : decode 0x00E0#16 = some .cls := by decide
theorem test_decode_ret : decode 0x00EE#16 = some .ret := by decide
theorem test_decode_scr : decode 0x00FB#16 = some .scr := by decide
theorem test_decode_scl : decode 0x00FC#16 = some .scl := by decide
theorem test_decode_exit : decode 0x00FD#16 = some .exit := by decide
theorem test_decode_low : decode 0x00FE#16 = some .low := by decide
theorem test_decode_high : decode 0x00FF#16 = some .high := by decide
theorem test_decode_jp : decode 0x1ABC#16 = some (.jp 0xABC#12) := by decide
theorem test_decode_call : decode 0x2205#16 = some (.call 0x205#12) := by decide
theorem test_decode_seImm : decode 0x332A#16 = some (.seImm 3#4 0x2A#8) := by decide
theorem test_decode_sneImm : decode 0x432B#16 = some (.sneImm 3#4 0x2B#8) := by decide
theorem test_decode_seReg : decode 0x5120#16 = some (.seReg 1#4 2#4) := by decide
theorem test_decode_ldImm : decode 0x6A3C#16 = some (.ldImm 0xA#4 0x3C#8) := by decide
theorem test_decode_addImm : decode 0x7F01#16 = some (.addImm 0xF#4 1#8) := by decide
theorem test_decode_ldReg : decode 0x8120#16 = some (.ldReg 1#4 2#4) := by decide
theorem test_decode_orReg : decode 0x8121#16 = some (.orReg 1#4 2#4) := by decide
theorem test_decode_andReg : decode 0x8122#16 = some (.andReg 1#4 2#4) := by decide
theorem test_decode_xorReg : decode 0x8123#16 = some (.xorReg 1#4 2#4) := by decide
theorem test_decode_addReg : decode 0x8124#16 = some (.addReg 1#4 2#4) := by decide
theorem test_decode_subReg : decode 0x8125#16 = some (.subReg 1#4 2#4) := by decide
theorem test_decode_shrReg : decode 0x8AB6#16 = some (.shrReg 0xA#4 0xB#4) := by decide
theorem test_decode_subnReg : decode 0x8127#16 = some (.subnReg 1#4 2#4) := by decide
theorem test_decode_shlReg : decode 0x812E#16 = some (.shlReg 1#4 2#4) := by decide
theorem test_decode_sneReg : decode 0x9120#16 = some (.sneReg 1#4 2#4) := by decide
theorem test_decode_ldI : decode 0xA300#16 = some (.ldI 0x300#12) := by decide
theorem test_decode_jpV0 : decode 0xBF00#16 = some (.jpV0 0xF00#12) := by decide
theorem test_decode_rnd : decode 0xC30F#16 = some (.rnd 3#4 0x0F#8) := by decide
theorem test_decode_drw : decode 0xD5C7#16 = some (.drw 5#4 0xC#4 7#4) := by decide
theorem test_decode_skp : decode 0xE19E#16 = some (.skp 1#4) := by decide
theorem test_decode_sknp : decode 0xE2A1#16 = some (.sknp 2#4) := by decide
theorem test_decode_ldVxDt : decode 0xF407#16 = some (.ldVxDt 4#4) := by decide
theorem test_decode_ldVxK : decode 0xF30A#16 = some (.ldVxK 3#4) := by decide
theorem test_decode_ldDtVx : decode 0xF415#16 = some (.ldDtVx 4#4) := by decide
theorem test_decode_ldStVx : decode 0xF418#16 = some (.ldStVx 4#4) := by decide
theorem test_decode_addI : decode 0xF21E#16 = some (.addI 2#4) := by decide
theorem test_decode_ldF : decode 0xF129#16 = some (.ldF 1#4) := by decide
theorem test_decode_ldHf : decode 0xF130#16 = some (.ldHf 1#4) := by decide
theorem test_decode_ldB : decode 0xF133#16 = some (.ldB 1#4) := by decide
theorem test_decode_stBlock : decode 0xF255#16 = some (.stBlock 2#4) := by decide
theorem test_decode_ldBlock : decode 0xFE65#16 = some (.ldBlock 0xE#4) := by decide

/-- R44: the byte at the lower address is the high one. -/
theorem test_decodeBytes_big_endian :
    (decodeBytes [0x6A#8, 0x3C#8, 0x77#8]).toOption = some (.ldImm 0xA#4 0x3C#8, [0x77#8]) := by decide
theorem test_decodeBytes_truncated : (decodeBytes [0x6A#8]).toOption = none := by decide

/-! ### Ill-formed words: one for each row of R66 -/

theorem test_illformed_family0 : wordWf 0x0000#16 = false ∧ wordWf 0x00D1#16 = false ∧ wordWf 0x01E0#16 = false := by
  decide
theorem test_illformed_family5 : wordWf 0x5121#16 = false := by decide
theorem test_illformed_family8 : wordWf 0x8128#16 = false ∧ wordWf 0x812F#16 = false := by decide
theorem test_illformed_family9 : wordWf 0x912F#16 = false := by decide
theorem test_illformed_familyE : wordWf 0xE29F#16 = false ∧ wordWf 0xE0A0#16 = false := by decide
theorem test_illformed_familyF : wordWf 0xF108#16 = false ∧ wordWf 0xF175#16 = false ∧ wordWf 0xF1FF#16 = false := by
  decide
theorem test_reserved_refused : decode 0x0000#16 = none ∧ decode 0x5121#16 = none ∧ decode 0x8128#16 = none ∧
    decode 0x912F#16 = none ∧ decode 0xE29F#16 = none ∧ decode 0xF185#16 = none := by decide
theorem test_instr_wf : Instr.wf (.drw 1#4 2#4 3#4) = true ∧ Instr.wf (.scd 0#4) = true := by decide

/-- L3, L4, L5: loads the core refuses, and the largest ones it accepts. -/
theorem test_load_wf : Transaction.wf (.load 239 [] none) = false ∧ Transaction.wf (.load 240 [] none) = true ∧
    Transaction.wf (.load 0xFFF [0x12#8] none) = true ∧ Transaction.wf (.load 0xFFF [0x12#8, 0#8] none) = false := by
  decide
theorem test_readPx_wf : Transaction.wf (.readPx 127 63) = true ∧ Transaction.wf (.readPx 128 0) = false ∧
    Transaction.wf (.readPx 0 64) = false := by decide

/-! ### Family 0 -/

/-- S2. -/
theorem test_scd_two : after (at200 0x00C2#16 (withRow 0 (0x80#8 ++ 0#120) (withRow 61 0xAA (withRow 63 0xCC r0))))
    (fun t => (t.disp.fb[0], t.disp.fb[2], t.disp.fb[63], t.disp.dirty)) =
      some (0#128, 0x80#8 ++ 0#120, 0xAA#128, true) := by decide +kernel
/-- S3: the old bottom row reappears in row 3. -/
theorem test_scd_four_wraps : after (at200 0x00C4#16 (withRow 0 7 (withRow 63 0xCC r0)))
    (fun t => (t.disp.fb[1], t.disp.fb[3], t.disp.fb[4])) = some (0#128, 0xCC#128, 7#128) := by decide +kernel
/-- S5. -/
theorem test_cls : after (at200 0x00E0#16 (inMode .high (withRow 5 9 r0)))
    (fun t => (t.disp.fb[5], t.disp.dirty, t.disp.mode, t.pc)) = some (0#128, true, .high, 0x202#16) := by
  decide +kernel
/-- S6. -/
theorem test_ret : after (at200 0x00EE#16 { r0 with sp := 2, stack := (r0.stack.set 0 0x200).set 1 0x345 })
    (fun t => (t.sp, t.pc, t.stack[1])) = some (1#5, 0x347#16, 0x345#12) := by decide +kernel
/-- S7. -/
theorem test_ret_underflow : after (at200 0x00EE#16 r0) record =
    some (.faulted, 3, 0x00EE#16, 0x200#16, 0x200#16) := by decide +kernel
/-- S9: columns 124..127 re-enter at columns 0..3. -/
theorem test_scr : after (at200 0x00FB#16 (withRow 1 2 (withRow 2 0xF r0)))
    (fun t => (t.disp.fb[1], t.disp.fb[2])) = some (1#128 <<< 125, 0xF#128 <<< 124) := by decide +kernel
/-- S10. -/
theorem test_scl : after (at200 0x00FC#16 (withRow 1 (0x40#8 ++ 0#120) r0)) (fun t => (t.disp.fb[1], t.disp.dirty)) =
    some (4#128, true) := by decide +kernel
/-- S11. -/
theorem test_exit : after (at200 0x00FD#16 r0) (fun t => (t.status, t.pc, t.tickReport)) =
    some (.exited, 0x200#16, some .exit) := by decide +kernel
/-- S12. -/
theorem test_low : after (at200 0x00FE#16 (inMode .high r0)) (fun t => (t.disp.mode, t.disp.dirty, t.pc)) =
    some (.low, false, 0x202#16) := by decide +kernel
/-- S13. -/
theorem test_high : after (at200 0x00FF#16 r0) (fun t => (t.disp.mode, t.disp.dirty)) = some (.high, false) := by
  decide +kernel

/-! ### Control flow -/

/-- J1. -/
theorem test_jp : after (at200 0x1ABC#16 r0) (·.pc) = some 0xABC#16 := by decide +kernel
/-- J5: the 16th call, from the last address that can be fetched. -/
theorem test_call_sixteenth : after (placeOpcode 0x2ABC#16 { r0 with pc := 0xFFE, sp := 15 })
    (fun t => (t.sp, t.stack[15], t.pc)) = some (16#5, 0xFFE#12, 0xABC#16) := by decide +kernel
/-- J6. -/
theorem test_call_overflow : after (at200 0x2ABC#16 { r0 with sp := 16 }) record =
    some (.faulted, 2, 0x2ABC#16, 0x200#16, 0x200#16) := by decide +kernel
/-- J7, J8. -/
theorem test_seImm : after (at200 0x332A#16 (r0.setV 3 0x2A)) (·.pc) = some 0x204#16 ∧
    after (at200 0x332B#16 (r0.setV 3 0x2A)) (·.pc) = some 0x202#16 := by decide +kernel
/-- J9, J10. -/
theorem test_sneImm : after (at200 0x432A#16 (r0.setV 3 0x2A)) (·.pc) = some 0x202#16 ∧
    after (at200 0x432B#16 (r0.setV 3 0x2A)) (·.pc) = some 0x204#16 := by decide +kernel
/-- J11, J12. -/
theorem test_seReg : after (at200 0x5120#16 ((r0.setV 1 7).setV 2 7)) (·.pc) = some 0x204#16 ∧
    after (at200 0x5120#16 ((r0.setV 1 7).setV 2 8)) (·.pc) = some 0x202#16 := by decide +kernel
/-- J15, J17. -/
theorem test_sneReg : after (at200 0x9120#16 ((r0.setV 1 7).setV 2 8)) (·.pc) = some 0x204#16 ∧
    after (at200 0x9330#16 (r0.setV 3 9)) (·.pc) = some 0x202#16 := by decide +kernel
/-- J20. -/
theorem test_jpV0_no_wrap : after (at200 0xBFFF#16 (r0.setV 0 0xFF)) (·.pc) = some 0x10FE#16 := by decide +kernel
/-- J21: the register is V0, not V2. -/
theorem test_jpV0_register : after (at200 0xB2FF#16 (r0.setV 2 0x55)) (·.pc) = some 0x2FF#16 := by decide +kernel
/-- J24, J23: the fetch faults at 0xFFF and not at 0xFFD. -/
theorem test_fetch_fault : after { r0 with pc := 0xFFF } record =
    some (.faulted, 4, 0#16, 0xFFF#16, 0xFFF#16) := by decide +kernel
theorem test_fetch_odd : after (placeOpcode 0x6000#16 { r0 with pc := 0xFFD }) (·.pc) = some 0xFFF#16 := by
  decide +kernel
/-- S14, J14, A45, K22. -/
theorem test_decode_fault : after (at200 0x00E1#16 r0) record =
    some (.faulted, 1, 0x00E1#16, 0x200#16, 0x200#16) := by decide +kernel

/-! ### Loads and arithmetic -/

/-- A2: VF as an ordinary register. -/
theorem test_ldImm : after (at200 0x6FAB#16 (r0.setV 0xF 1)) (fun t => (t.getV 0xF, t.pc)) =
    some (0xAB#8, 0x202#16) := by decide +kernel
/-- A4: no flag effect. -/
theorem test_addImm_no_flag : after (at200 0x7001#16 ((r0.setV 0 0xFF).setV 0xF 1))
    (fun t => (t.getV 0, t.getV 0xF)) = some (0#8, 1#8) := by decide +kernel
/-- A7. -/
theorem test_ldReg : after (at200 0x8120#16 ((r0.setV 1 0x12).setV 2 0x34)) (fun t => (t.getV 1, t.getV 2)) =
    some (0x34#8, 0x34#8) := by decide +kernel
/-- A9. -/
theorem test_orReg : after (at200 0x8121#16 (((r0.setV 1 0xF0).setV 2 0x0F).setV 0xF 1))
    (fun t => (t.getV 1, t.getV 0xF)) = some (0xFF#8, 1#8) := by decide +kernel
/-- A10. -/
theorem test_andReg : after (at200 0x8122#16 (((r0.setV 1 0xF0).setV 2 0x3C).setV 0xF 1))
    (fun t => (t.getV 1, t.getV 0xF)) = some (0x30#8, 1#8) := by decide +kernel
/-- A11. -/
theorem test_xorReg : after (at200 0x8123#16 (((r0.setV 1 0xF0).setV 2 0x3C).setV 0xF 1))
    (fun t => (t.getV 1, t.getV 0xF)) = some (0xCC#8, 1#8) := by decide +kernel
/-- A16: the sum is exactly 255. -/
theorem test_addReg_255 : after (at200 0x8124#16 (((r0.setV 1 100).setV 2 155).setV 0xF 1))
    (fun t => (t.getV 1, t.getV 0xF)) = some (0xFF#8, 0#8) := by decide +kernel
/-- A18: the flag wins over the sum. -/
theorem test_addReg_vf : after (at200 0x8F14#16 ((r0.setV 0xF 0xF0).setV 1 0x20)) (·.getV 0xF) = some 1#8 := by
  decide +kernel
/-- A23. -/
theorem test_subReg : after (at200 0x8125#16 (((r0.setV 1 5).setV 2 10).setV 0xF 1))
    (fun t => (t.getV 1, t.getV 0xF)) = some (251#8, 0#8) := by decide +kernel
/-- A29: the old VF is the subtrahend. -/
theorem test_subReg_vf : after (at200 0x81F5#16 ((r0.setV 1 5).setV 0xF 3)) (fun t => (t.getV 1, t.getV 0xF)) =
    some (2#8, 1#8) := by decide +kernel
/-- A30: Vy is shifted. -/
theorem test_shrReg : after (at200 0x8126#16 ((r0.setV 1 0xAA).setV 2 5)) (fun t => (t.getV 1, t.getV 2, t.getV 0xF)) =
    some (2#8, 5#8, 1#8) := by decide +kernel
/-- A33. -/
theorem test_shrReg_vf : after (at200 0x8F26#16 ((r0.setV 2 2).setV 0xF 1)) (·.getV 0xF) = some 0#8 := by
  decide +kernel
/-- A37. -/
theorem test_subnReg : after (at200 0x8127#16 (((r0.setV 1 10).setV 2 5).setV 0xF 1))
    (fun t => (t.getV 1, t.getV 0xF)) = some (0xFB#8, 0#8) := by decide +kernel
/-- A40. -/
theorem test_shlReg : after (at200 0x812E#16 ((r0.setV 1 0xAA).setV 2 0x81))
    (fun t => (t.getV 1, t.getV 2, t.getV 0xF)) = some (2#8, 0x81#8, 1#8) := by decide +kernel
/-- A43. -/
theorem test_shlReg_vf : after (at200 0x8F2E#16 (r0.setV 2 0xC0)) (·.getV 0xF) = some 1#8 := by decide +kernel

/-! ### Draw and the display primitives -/

/-- W6: low resolution, across the right edge. -/
theorem test_drw_low_wrap : after (at200 0xD011#16 ((withMem 0x300 [0xFF] { r0 with i := 0x300 }).setV 0 60 |>.setV 1 31))
    (fun t => (t.disp.fb[62], t.disp.fb[63], t.getV 0xF)) =
      some (0xFF0000000000000000000000000000FF#128, 0xFF0000000000000000000000000000FF#128, 0#8) := by decide +kernel
/-- W17: erasure in the first of the two rows only. -/
theorem test_drw_collision : after (at200 0xD011#16 (withRow 0 (0x80#8 ++ 0#120) (withMem 0x300 [0x80] { r0 with i := 0x300 })))
    (fun t => (t.disp.fb[0], t.disp.fb[1], t.getV 0xF, t.disp.dirty)) =
      some (0x40#8 ++ 0#120, 0xC0#8 ++ 0#120, 1#8, true) := by decide +kernel
/-- The 16x16 sprite of W11, at its first row: left byte at column 120, right byte round the edge. -/
theorem test_writeAll_big : (Display.writeAll (Display.reset.setMode .high)
      (spriteCalls true 120 50 [0x80, 0x01])).2.fb[50] = 0x01000000000000000000000000000080#128 := by decide +kernel
/-- W14: the whole range is checked. -/
theorem test_drw_fault : after (at200 0xD010#16 (inMode .high { r0 with i := 0xFE1 })) record =
    some (.faulted, 4, 0xD010#16, 0x200#16, 0x200#16) := by decide +kernel
/-- X1. -/
theorem test_expand : expand 0x80 = 0xC000#16 ∧ expand 0x01 = 0x0003#16 ∧ expand 0xA5 = 0xCC33#16 ∧
    expand 0x3C = 0x0FF0#16 := by decide
/-- X4. -/
theorem test_scrollSide_one : ((Display.scrollSide { Display.reset with
      fb := Display.reset.fb.set 9 0x80000000000000000000000000000001 } 1).fb)[9] =
    0xC0000000000000000000000000000000#128 := by decide +kernel

/-! ### Random, keys, timers -/

/-- K1. -/
theorem test_rnd : after (at200 0xC30F#16 { r0 with host := { r0.host with randBytes := [0xB7] } })
    (fun t => (t.getV 3, t.host.randBytes)) = some (7#8, []) := by decide +kernel
/-- K5. -/
theorem test_skp : after (at200 0xE29E#16 ({ r0 with host := { r0.host with keysDown := [[5]] } }.setV 2 5)) (·.pc) =
    some 0x204#16 := by decide +kernel
/-- K7: the code is not masked. -/
theorem test_skp_unmasked : after (at200 0xE29E#16 ({ r0 with host := { r0.host with keysDown := [[5]] } }.setV 2 0x15))
    (·.pc) = some 0x202#16 := by decide +kernel
/-- K9. -/
theorem test_sknp : after (at200 0xE2A1#16 ({ r0 with host := { r0.host with keysDown := [[]] } }.setV 2 5)) (·.pc) =
    some 0x204#16 := by decide +kernel
/-- K12. -/
theorem test_ldVxDt : after (at200 0xF407#16 { r0 with dt := 0x3C }) (fun t => (t.getV 4, t.dt)) =
    some (0x3C#8, 0x3C#8) := by decide +kernel
/-- K15. -/
theorem test_ldVxK : after (at200 0xF30A#16 { r0 with host := { r0.host with keyCodes := [some 0xC8] } })
    (fun t => (t.getV 3, t.pc, t.waiting)) = some (0xC8#8, 0x202#16, none) := by decide +kernel
/-- R218: while the host has not answered the tick stays in progress, and no timer tick is taken. -/
theorem test_ldVxK_waits : after { r0 with dt := 5, waiting := some 3, host := { r0.host with
      keyCodes := [none, some 1], schedule := [.timerTick] } }
    (fun t => (t.dt, t.pc, t.waiting, t.host.schedule)) =
      some (5#8, 0#16, some 3#4, [.timerTick]) := by decide +kernel
/-- K17. -/
theorem test_ldDtVx : after (at200 0xF415#16 (r0.setV 4 60)) (·.dt) = some 60#8 := by decide +kernel
/-- K18. -/
theorem test_ldStVx : after (at200 0xF418#16 (r0.setV 4 2)) (fun t => (t.st, t.soundActive)) = some (2#8, true) := by
  decide +kernel
/-- K20, K21. -/
theorem test_timerTick : after { r0 with dt := 1, status := .faulted, host := { r0.host with schedule := [.timerTick] } }
    (fun t => (t.dt, t.st, t.status)) = some (0#8, 0#8, .faulted) := by decide +kernel

/-! ### Index register and memory -/

/-- M2. -/
theorem test_ldI : after (at200 0xAFFF#16 r0) (·.i) = some 0xFFF#12 := by decide +kernel
/-- M6: modulo 4096, VF untouched. -/
theorem test_addI_wraps : after (at200 0xF21E#16 (({ r0 with i := 0xF80 }.setV 2 0xFF).setV 0xF 1))
    (fun t => (t.i, t.getV 0xF)) = some (0x07F#12, 1#8) := by decide +kernel
/-- M9. -/
theorem test_ldF : after (at200 0xF129#16 (r0.setV 1 0xFF)) (·.i) = some 0x4FB#12 := by decide +kernel
/-- M11. -/
theorem test_ldHf : after (at200 0xF130#16 (r0.setV 1 0xFF)) (·.i) = some 0xA1E#12 := by decide +kernel
/-- X8, M12. -/
theorem test_ldB : after (at200 0xF133#16 ({ r0 with i := 0x300 }.setV 1 249))
    (fun t => (Memory.readList t.mem 0x300 3, t.i)) = some ([2#8, 4#8, 9#8], 0x300#12) := by decide +kernel
/-- M16. -/
theorem test_ldB_fault : after (at200 0xF133#16 ({ r0 with i := 0xFFE }.setV 1 7))
    (fun t => (record t, Memory.read t.mem 0xFFE)) =
      some ((.faulted, 4, 0xF133#16, 0x200#16, 0x200#16), 0#8) := by decide +kernel
/-- M17. -/
theorem test_stBlock : after (at200 0xF255#16 ((((({ r0 with i := 0x400 }.setV 0 1).setV 1 2).setV 2 3).setV 3 4)))
    (fun t => (Memory.readList t.mem 0x400 4, t.i)) = some ([1#8, 2#8, 3#8, 0#8], 0x400#12) := by decide +kernel
/-- M20. -/
theorem test_stBlock_fault : after (at200 0xFF55#16 ({ r0 with i := 0xFF1 }.setV 0 9))
    (fun t => (t.fcause.code, Memory.read t.mem 0xFF1)) = some (4, 0#8) := by decide +kernel
/-- M23. -/
theorem test_ldBlock : after (at200 0xF265#16 ((withMem 0x400 [9, 8, 7, 6] { r0 with i := 0x400 }).setV 3 0x33))
    (fun t => (t.getV 0, t.getV 1, t.getV 2, t.getV 3)) = some (9#8, 8#8, 7#8, 0x33#8) := by decide +kernel
/-- M26. -/
theorem test_ldBlock_last : after (at200 0xF065#16 (withMem 0xFFF [0x5A] { r0 with i := 0xFFF })) (·.getV 0) =
    some 0x5A#8 := by decide +kernel

/-! ### Reset, load, reads -/

/-- L1. -/
theorem test_reset_tick : after r0 record = some (.faulted, 1, 0#16, 0#16, 0#16) := by decide +kernel
/-- L2, L6: a load sets memory, PC and STATUS, and keeps the rest. -/
theorem test_load : after ({ r0 with status := .faulted, sp := 4, dt := 9, host := { r0.host with
      schedule := [.load 0x200 [0x60, 0x05] (some (Vector.replicate 240 7))] } }.setV 3 7)
    (fun t => (Memory.read t.mem 239, Memory.readList t.mem 0x200 2, t.pc, t.status, t.sp, t.getV 3)) =
      some (7#8, [0x60#8, 0x05#8], 0x200#16, .running, 4#5, 7#8) := by decide +kernel
/-- L7. -/
theorem test_stopped_tick : after { r0 with status := .faulted, fcause := .stackOverflow, fpc := 0x200 }
    (fun t => (t.status, t.fcause.code, t.pc)) = some (.faulted, 2, 0#16) := by decide +kernel
/-- L8, L9. -/
theorem test_readPx : after { withRow 0 (0x10#8 ++ 0#120) (markDirty r0) with host := { r0.host with
      schedule := [.readPx 3 0] } }
    (fun t => (t.disp.dirty, t.displayPixel 3 0, t.displayPixel 4 0)) = some (false, some true, some false) := by
  decide +kernel

/-! ### The host's fetch: an opcode-table word runs as the first instruction after reset -/

theorem test_decodeTableWord : decodeTableWord 16 0x6A3C = some (.ldImm 0xA#4 0x3C#8) := by decide
theorem test_withFetchWord : after (State.reset.withFetchWord 16 0x6A3C) (fun t => (t.getV 0xA, t.pc)) =
    some (0x3C#8, 2#16) := by decide +kernel

/-! ### Invariant at reset -/

theorem test_reset_memory_wf : Memory.wf State.reset.mem = true := by decide

/-! ### Witnesses: for every statement with hypotheses, a state and operands that meet them together, clause by
clause, at the ends of their ranges -/

/-- A core in the fault state of a stack overflow, with the host's next transaction as given. -/
def stopped (t : Transaction) : State :=
  { r0 with status := .faulted, fcause := .stackOverflow, host := { r0.host with schedule := [t] } }

/-- A core at 0x200 whose host's next transaction is as given. -/
def facing (t : Transaction) : State :=
  { r0 with pc := 0x200, host := { r0.host with schedule := [t, .cpuTick] } }

/-- A core at 0x200 in the wait of `F30A`. -/
def inWait (answers : List (Option Byte)) : State :=
  { at200 0xF30A#16 r0 with waiting := some 3, host := { r0.host with keyCodes := answers } }

theorem witness_EncodingDecodesBack : Instr.wf (.drw 0xF#4 0#4 0xF#4) = true := rfl

theorem witness_DecodedWordEncodesBack : decode 0xFF65#16 = some (.ldBlock 0xF#4) := by decide

/-- The first and the last row of the table, the second with an operand. -/
theorem witness_DecodeFollowsOpcodeMap :
    (∃ r, r ∈ opcodeTable ∧ 0x00CF#16 &&& r.mask = r.value) ∧ ∃ r, r ∈ opcodeTable ∧ 0xFF65#16 &&& r.mask = r.value :=
  ⟨⟨opcodeTable.head (by decide), by decide, by decide⟩, ⟨opcodeTable.getLast (by decide), by decide, by decide⟩⟩

theorem witness_ReservedWordsRaiseDecodeFault :
    (at200 0xFFFF#16 r0).ticksNext ∧ (at200 0xFFFF#16 r0).status = .running ∧
      (at200 0xFFFF#16 r0).fetchOpcode = some 0xFFFF#16 ∧ reservedWord 0xFFFF#16 = true :=
  ⟨⟨rfl, rfl⟩, rfl, by decide +kernel, by decide⟩

/-- The last address an opcode is fetched from, and both ways the bytes are given. -/
theorem witness_StepRunsTheDecodedInstruction :
    let s := placeOpcode 0x1FFF#16 { r0 with pc := 0xFFE }
    s.ticksNext ∧ s.status = .running ∧ s.pc.toNat ≤ 0xFFE ∧ s.host.schedule = [] ∧
      decode (opcodeOfBytes (Memory.read s.mem s.pc.toNat) (Memory.read s.mem (s.pc.toNat + 1))) =
        some (.jp 0xFFF#12) ∧
      Memory.readList s.mem s.pc.toNat 2 = encodeBytes (.jp 0xFFF#12) :=
  ⟨⟨rfl, rfl⟩, rfl, by decide +kernel, rfl, by decide +kernel, by decide +kernel⟩

theorem witness_FetchReadsBigEndianOrFaults :
    (0xFFE#16).toNat ≤ 0xFFE ∧ (let s : State := { r0 with pc := 0xFFF }
      s.ticksNext ∧ s.status = .running ∧ 0xFFE < s.pc.toNat) :=
  ⟨by decide, ⟨rfl, rfl⟩, rfl, by decide⟩

/-- One stopped core for each clause; the load is one that brings RUNNING back. -/
theorem witness_StoppedCoreIgnoresCpuTicks : ∀ t : Transaction,
    (stopped t).status ≠ .running ∧ (stopped t).waiting = none ∧ (stopped t).host.take.1 = t := fun _ =>
  ⟨by simp [stopped], rfl, rfl⟩
theorem witness_StoppedCoreIgnoresCpuTicks_last : ∃ t, step (stopped .reset) = .next t ∧ t.status = .running :=
  ⟨_, rfl, rfl⟩

/-- A full stack with the last address in it, at the highest `PC` there is. -/
theorem witness_EveryStepKeepsLegal :
    let s : State := { r0 with pc := 0x10FE, sp := 16, stack := Vector.replicate 16 0xFFE }
    s.Legal ∧ ∃ t, step s = .next t :=
  ⟨⟨rfl, by decide, by decide, by decide +kernel, rfl, rfl⟩, ⟨_, rfl⟩⟩
/-- A legal state that waits, and a legal FAULTED one. -/
theorem witness_EveryStepKeepsLegal_wait : (inWait [none]).Legal ∧ ∃ t, step (inWait [none]) = .next t :=
  ⟨⟨by decide +kernel, by decide, by decide, by decide +kernel, rfl, by decide +kernel⟩, ⟨_, rfl⟩⟩
theorem witness_EveryStepKeepsLegal_faulted : (stopped .timerTick).Legal ∧ ∃ t, step (stopped .timerTick) = .next t :=
  ⟨⟨rfl, by decide, by decide, by decide +kernel, rfl, rfl⟩, ⟨_, rfl⟩⟩

theorem witness_LegalStatesAlwaysStep :
    ((facing (.load 240 [] none)).Legal ∧ (facing (.load 240 [] none)).host.take.1.wf = true) ∧
    ((inWait []).Legal ∧ (inWait []).waiting.isSome) ∧
    (facing (.readPx 128 63)).Legal ∧ (facing (.readPx 128 63)).waiting = none ∧
      (facing (.readPx 128 63)).host.take.1.wf = false :=
  ⟨⟨⟨rfl, by decide, by decide, by decide +kernel, rfl, rfl⟩, rfl⟩,
    ⟨⟨by decide +kernel, by decide, by decide, by decide +kernel, rfl, by decide +kernel⟩, rfl⟩,
    ⟨rfl, by decide, by decide, by decide +kernel, rfl, rfl⟩, rfl, rfl⟩

theorem witness_FaultsArePrecise :
    (at200 0xFF55#16 { r0 with i := 0xFF1 }).ticksNext ∧ (at200 0xFF55#16 { r0 with i := 0xFF1 }).status = .running ∧
      after (at200 0xFF55#16 { r0 with i := 0xFF1 }) (·.status) = some .faulted :=
  ⟨⟨rfl, rfl⟩, rfl, by decide +kernel⟩

/-- Each condition of R203 to R205 at its boundary, and just inside it. -/
theorem witness_ExecuteFaultsExactlyWhenStated :
    executeFault (.call 0x300) { r0 with sp := 16 } = some .stackOverflow ∧
    executeFault (.call 0x300) { r0 with sp := 15 } = none ∧
    executeFault .ret r0 = some .stackUnderflow ∧ executeFault .ret { r0 with sp := 1 } = none ∧
    executeFault (.drw 0 0 2) { r0 with i := 0xFFF } = some .addressFault ∧
    executeFault (.drw 0 0 1) { r0 with i := 0xFFF } = none ∧
    executeFault (.drw 0 0 0) (inMode .high { r0 with i := 0xFE1 }) = some .addressFault ∧
    executeFault (.drw 0 0 0) (inMode .high { r0 with i := 0xFE0 }) = none ∧
    executeFault (.drw 0 0 0) { r0 with i := 0xFFF } = none ∧
    executeFault (.ldB 1) { r0 with i := 0xFFE } = some .addressFault ∧
    executeFault (.ldB 1) { r0 with i := 0xFFD } = none ∧
    executeFault (.stBlock 0xF) { r0 with i := 0xFF1 } = some .addressFault ∧
    executeFault (.stBlock 0xF) { r0 with i := 0xFF0 } = none ∧
    executeFault (.ldBlock 1) { r0 with i := 0xFFF } = some .addressFault ∧
    executeFault (.ldBlock 0) { r0 with i := 0xFFF } = none ∧
    ∃ t, exec (.ldBlock 0) { r0 with i := 0xFFF } = .next t := by
  refine ⟨?_, ?_, ?_, ?_, ?_, ?_, ?_, ?_, ?_, ?_, ?_, ?_, ?_, ?_, ?_, ⟨_, rfl⟩⟩ <;> decide

theorem witness_OnlyExitExits : r0.status = .running ∧ (∃ t, exec .exit r0 = .next t) ∧ ∃ t, exec .cls r0 = .next t :=
  ⟨rfl, ⟨_, rfl⟩, ⟨_, rfl⟩⟩

theorem witness_OnlyFlagWritersChangeVf :
    writesVf (.ldBlock 0xE) = false ∧ writesVf (.ldImm 0xE 1) = false ∧ ∃ t, exec (.ldBlock 0xE) r0 = .next t :=
  ⟨rfl, rfl, ⟨_, rfl⟩⟩

theorem witness_OnlyTimerWritersChangeTimers : (∀ x, Instr.cls ≠ .ldDtVx x) ∧ (∀ x, Instr.cls ≠ .ldStVx x) ∧
    ∃ t, exec .cls r0 = .next t :=
  ⟨by decide, by decide, ⟨_, rfl⟩⟩

theorem witness_OnlyStoresChangeMemory :
    (∀ x, Instr.ldBlock 3 ≠ .ldB x) ∧ (∀ x, Instr.ldBlock 3 ≠ .stBlock x) ∧ ∃ t, exec (.ldBlock 3) r0 = .next t :=
  ⟨by decide, by decide, ⟨_, rfl⟩⟩

theorem witness_OnlyCallAndRetChangeStack :
    (∀ nnn, Instr.jp 0x300 ≠ .call nnn) ∧ Instr.jp 0x300 ≠ .ret ∧ ∃ t, exec (.jp 0x300) r0 = .next t :=
  ⟨(fun _ h => by cases h), by decide, ⟨_, rfl⟩⟩

theorem witness_OnlyDisplayInstructionsChangeDisplay :
    (∃ t, exec (.drw 1 2 0) r0 = .next t) ∧ Instr.drw 1 2 0 ≠ .low ∧ Instr.drw 1 2 0 ≠ .high ∧
    (∃ t, exec .low r0 = .next t) ∧ writesBuffer .low = false :=
  ⟨⟨_, rfl⟩, by decide, by decide, ⟨_, rfl⟩, rfl⟩

theorem witness_RetPopsAndAddsTwo : (0 < (1#5).toNat ∧ (1#5).toNat ≤ 16) ∧ (0 < (16#5).toNat ∧ (16#5).toNat ≤ 16) ∧
    r0.sp = 0#5 := by decide

theorem witness_SideScrollsUndoEachOther : ∃ t u v w, exec .scr r0 = .next t ∧ exec .scl t = .next u ∧
    exec .scl r0 = .next v ∧ exec .scr v = .next w := ⟨_, _, _, _, rfl, rfl, rfl, rfl⟩

theorem witness_ExitSetsStatusOnly : r0.waiting = none := rfl

/-- The empty stack, the last free slot and the full stack. -/
theorem witness_CallPushesItsOwnAddress : r0.sp.toNat < 16 ∧ { r0 with sp := 15 }.sp.toNat < 16 ∧
    { r0 with sp := 16 }.sp = 16#5 := by decide

theorem witness_ReturnGoesAfterTheCall : ∃ s t t' : State, s.sp.toNat < 16 ∧ s.pc.toNat ≤ 0xFFE ∧
    exec (.call 0x300) s = .next t ∧ t'.sp = t.sp ∧ t'.stack = t.stack ∧ t'.pc ≠ t.pc :=
  ⟨{ r0 with pc := 0xFFE, sp := 15 }, _, { r0 with sp := 16, stack := r0.stack.set 15 0xFFE }, by decide, by decide,
    rfl, rfl, by decide +kernel, by decide⟩

theorem witness_SkipsCompareAndWritePcOnly : (r0.getV 3 = 0#8 ∧ r0.getV 3 ≠ 1#8) ∧
    r0.getV 3 = r0.getV 4 ∧ (r0.setV 3 1).getV 3 ≠ (r0.setV 3 1).getV 4 := by decide

/-- For the sums, differences and shifts: a destination that is not VF, and a register that is neither. -/
theorem witness_AddWritesSumThenCarry : (1#4 : RegIdx) ≠ vf ∧ (2#4 : RegIdx) ≠ 1#4 ∧ (2#4 : RegIdx) ≠ vf := by decide
theorem witness_SubtractionsWriteDifferenceThenNotBorrow :
    (0#4 : RegIdx) ≠ vf ∧ (0xE#4 : RegIdx) ≠ 0#4 ∧ (0xE#4 : RegIdx) ≠ vf := by decide
theorem witness_ShiftsReadVyAndKeepTheBitShiftedOut :
    (0xE#4 : RegIdx) ≠ vf ∧ (0#4 : RegIdx) ≠ 0xE#4 ∧ (0#4 : RegIdx) ≠ vf := by decide

/-- The 16x16 sprite that ends at the last byte, the longest low one that does, and the sprite without a byte. -/
theorem witness_DrawXorsTheCoveredPixels :
    ((true = true ↔ 0#4 = 0#4 ∧ (inMode .high { r0 with i := 0xFE0 }).disp.mode = .high) ∧
      (inMode .high { r0 with i := 0xFE0 }).i.toNat + 32 - 1 ≤ 0xFFF) ∧
    ((false = true ↔ 0xF#4 = 0#4 ∧ r0.disp.mode = .high) ∧ { r0 with i := 0xFF1 }.i.toNat + 15 - 1 ≤ 0xFFF) ∧
    (false = true ↔ 0#4 = 0#4 ∧ r0.disp.mode = .high) := by decide

theorem witness_DrawPastMemoryFaults :
    (32 = (if 0#4 = 0#4 ∧ (inMode .high { r0 with i := 0xFE1 }).disp.mode = .high then 32 else (0#4).toNat) ∧
      0xFFF < (inMode .high { r0 with i := 0xFE1 }).i.toNat + 32 - 1) ∧
    (2 = (if 2#4 = 0#4 ∧ r0.disp.mode = .high then 32 else (2#4).toNat) ∧
      0xFFF < { r0 with i := 0xFFF }.i.toNat + 2 - 1 ∧ r0.pc.toNat ≤ 0xFFE) := by decide

theorem witness_WriteReportsErasureAndUndoesItself : (0x01#8 : Byte) ≠ 0#8 ∧
    ∀ c r, (Display.reset.writeByte 1 255 255).2.dot c r ≠ Display.reset.dot c r → Display.reset.dot c r = false :=
  ⟨by decide, fun c r _ => by simp [Display.dot, Display.reset, pixel]⟩
theorem witness_ExpandDoublesEveryBit : 0 < 8 ∧ 7 < 8 := by decide

theorem witness_RndMasksTheRandomByte :
    { r0.host with randBytes := [0xFF] }.randBytes = 0xFF#8 :: [] ∧ r0.host.randBytes = [] := ⟨rfl, rfl⟩
theorem witness_KeySkipsFollowTheHostsAnswer :
    { r0.host with keysDown := [[0, 255], []] }.keysDown = [0, 255] :: [[]] ∧ r0.host.keysDown = [] := ⟨rfl, rfl⟩
theorem witness_KeyWaitWritesTheAnswer : ({ r0.host with keyCodes := [some 0xFF, none] }).keyWait =
    (some 0xFF#8, { r0.host with keyCodes := [none] }) := rfl
theorem witness_KeyWaitSuspendsTheCore :
    ({ r0.host with keyCodes := [none] }).keyWait = (none, r0.host) ∧
    ((inWait [none]).waiting = some 3 ∧ (inWait [none]).host.keyWait = (none, r0.host)) ∧
    (inWait [some 0]).waiting = some 3 ∧ (inWait [some 0]).host.keyWait = (some 0#8, r0.host) := by
  refine ⟨?_, ⟨?_, ?_⟩, ?_, ?_⟩ <;> rfl

/-- Both writes, from 1 to 0 and from 255 to 0, as instructions and as CPU ticks. -/
theorem witness_TimerTickDecrementsWithFloor :
    (∃ t, exec (.ldDtVx 3) { r0 with dt := 1 } = .next t ∧ t.dt ≠ { r0 with dt := 1 }.dt) ∧
    (∃ t, exec (.ldStVx 3) { r0 with st := 255 } = .next t ∧ t.st ≠ { r0 with st := 255 }.st) ∧
    after (at200 0xF315#16 { r0 with dt := 1 }) (·.dt) = some 0#8 ∧
    after (at200 0xF318#16 { r0 with st := 255 }) (·.st) = some 0#8 :=
  ⟨⟨_, rfl, by decide⟩, ⟨_, rfl, by decide⟩, by decide +kernel, by decide +kernel⟩
/-- Reset, and the three transactions that are no tick and no reset. -/
theorem witness_TimerTickDecrementsWithFloor_host : (∃ t, perform .reset { r0 with dt := 9 } = .next t) ∧
    (∃ t, perform .read r0 = .next t) ∧ (∃ t, perform (.readPx 127 63) r0 = .next t) ∧
    (∃ t, perform (.load 240 [] none) r0 = .next t) ∧ Transaction.load 240 [] none ≠ .reset ∧
    Transaction.read ≠ .cpuTick ∧ Transaction.readPx 127 63 ≠ .timerTick :=
  ⟨⟨_, rfl⟩, ⟨_, rfl⟩, ⟨_, rfl⟩, ⟨_, rfl⟩, by decide, by decide, by decide⟩

theorem witness_IndexSumHighGlyphAndNoOtherWriter : (∀ nnn, Instr.ldBlock 2 ≠ .ldI nnn) ∧ (∀ x, Instr.ldBlock 2 ≠ .addI x) ∧
    (∀ x, Instr.ldBlock 2 ≠ .ldF x) ∧ (∀ x, Instr.ldBlock 2 ≠ .ldHf x) ∧ ∃ t, exec (.ldBlock 2) r0 = .next t :=
  ⟨(fun _ h => by cases h), by decide, by decide, by decide, ⟨_, rfl⟩⟩

theorem witness_BcdStoresThreeDigits : Memory.wf r0.mem = true ∧ { r0 with i := 0xFFD }.ea 2 ≤ 0xFFF ∧
    ({ r0 with i := 0xFFD }.ea 2 < 0x1000 ∨ 0xFFC < { r0 with i := 0xFFD }.ea 0) ∧
    0xFFF < { r0 with i := 0xFFE }.ea 2 := by decide

theorem witness_BlockStoreWritesRegistersUpToVx : Memory.wf r0.mem = true ∧ { r0 with i := 0xFF0 }.ea (0xF#4).toNat ≤ 0xFFF ∧
    (0xF#4).toNat ≤ (0xF#4).toNat ∧ 0xFFF < { r0 with i := 0xFF1 }.ea (0xF#4).toNat := by decide

theorem witness_BlockLoadReadsRegistersUpToVx : { r0 with i := 0xFFF }.ea (0#4).toNat ≤ 0xFFF ∧
    (0#4).toNat < (1#4).toNat ∧ 0xFFF < { r0 with i := 0xFFF }.ea (1#4).toNat := by decide

theorem witness_BlockStoreThenLoadRoundTrips : ∃ s t t' : State, Memory.wf s.mem = true ∧ s.ea (0xF#4).toNat ≤ 0xFFF ∧
    exec (.stBlock 0xF) s = .next t ∧ t'.mem = t.mem ∧ t'.i = t.i ∧ t'.getV 0 ≠ s.getV 0 :=
  ⟨({ r0 with i := 0xFF0 }.setV 0 5), _, { r0 with i := 0xFF0, mem := [(0xFF0, 5)] }, by decide, by decide, by rfl,
    by decide +kernel, by rfl, by decide⟩

/-- A fetch that meets the last stored byte only, and one of both bytes. -/
theorem witness_FetchSeesEveryStore : ∃ s t u : State, Memory.wf s.mem = true ∧ s.ea (0xE#4).toNat ≤ 0xFFF ∧
    exec (.stBlock 0xE) s = .next t ∧ u.mem = t.mem ∧ u.pc.toNat ≤ 0xFFE ∧ u.pc.toNat = s.ea 0xE :=
  ⟨({ r0 with i := 0xFF0 }.setV 0xE 0x12), _, { r0 with pc := 0xFFE, mem := [(0xFFE, 0x12)] }, by decide, by decide,
    by rfl, by decide +kernel, by decide, by decide⟩
theorem witness_FetchSeesEveryStore_ldB : ∃ s t u : State, Memory.wf s.mem = true ∧ s.ea 2 ≤ 0xFFF ∧
    exec (.ldB 1) s = .next t ∧ u.mem = t.mem ∧ u.pc.toNat ≤ 0xFFE ∧ u.pc.toNat = s.ea 1 :=
  ⟨({ r0 with i := 0xFFD }.setV 1 120), _, { r0 with pc := 0xFFE, mem := [(0xFFD, 1), (0xFFE, 2)] }, by decide,
    by decide, by rfl, by decide +kernel, by decide, by decide⟩

/-- The lowest offset, and a program that ends at the last byte. -/
theorem witness_LoadCopiesFontAndProgram :
    ((facing (.load 240 [1] none)).waiting = none ∧ (facing (.load 240 [1] none)).host.take.1 = .load 240 [1] none ∧
      Memory.wf (facing (.load 240 [1] none)).mem = true ∧ 240 ≤ 240 ∧ 240 + [1#8].length ≤ 4096) ∧
    240 ≤ 0xFFF ∧ 0xFFF + [1#8].length ≤ 4096 :=
  ⟨⟨rfl, rfl, rfl, by decide, by decide⟩, by decide, by decide⟩

theorem witness_BadLoadIsRefused : ((facing (.load 239 [] none)).waiting = none ∧
      (facing (.load 239 [] none)).host.take.1 = .load 239 [] none ∧ 239 < 240) ∧
    (facing (.load 0xFFF [1, 2] none)).host.take.1 = .load 0xFFF [1, 2] none ∧ 4096 < 0xFFF + [1#8, 2#8].length :=
  ⟨⟨rfl, rfl, by decide⟩, rfl, by decide⟩

theorem witness_PowerOnResetSetsEveryPiece : (facing .reset).waiting = none ∧ (facing .reset).host.take.1 = .reset ∧
    ∃ t, step (facing .reset) = .next t ∧ t.host.take.1 = .cpuTick := ⟨rfl, rfl, ⟨_, rfl, rfl⟩⟩

theorem witness_PixelReadClearsDirtyOrIsRefused : (127 < 128 ∧ 63 < 64) ∧ (128 ≤ 128 ∨ 64 ≤ 0) ∧ (128 ≤ 0 ∨ 64 ≤ 64) := by
  decide

theorem witness_StepPerformsTheHostsNextTransaction :
    ((facing .read).waiting = none ∧ (facing .read).host.schedule = .read :: [.cpuTick]) ∧
    r0.waiting = none ∧ r0.host.schedule = [] := ⟨⟨rfl, rfl⟩, rfl, rfl⟩

end Sys2Proof.Tests
end

section
/-! PROOFS. The display engine's primitives: CLS, the expansion of a sprite byte, and what `write` reports
(spec 40_display_engine.md R81 to R83, R86). -/

namespace Sys2Proof.Machine

/-! ### The bits of a byte and of a row -/

/-- A word other than 0 holds a set bit. -/
theorem exists_getLsbD_of_ne_zero {w : Nat} {v : BitVec w} (h : v ≠ 0#w) : ∃ i < w, v.getLsbD i = true := by
  obtain ⟨i, hbit⟩ := Nat.exists_testBit_of_ne_zero fun e : v.toNat = 0 => h (BitVec.eq_of_toNat_eq e)
  exact ⟨i, BitVec.lt_of_getLsbD hbit, hbit⟩

@[simp] theorem pixel_zero (c : Nat) : pixel 0#128 c = false := BitVec.getLsbD_zero

@[simp] theorem pixel_and (r q : Row) (c : Nat) : pixel (r &&& q) c = (pixel r c && pixel q c) := BitVec.getLsbD_and

/-- A row is other than 0 exactly when one of its pixels is set (R80). -/
theorem row_ne_zero_iff_exists_pixel (r : Row) : r ≠ 0#128 ↔ ∃ c : Fin 128, pixel r c = true := by
  constructor
  · intro h
    obtain ⟨p, hp, hbit⟩ := exists_getLsbD_of_ne_zero h
    refine ⟨⟨127 - p, by omega⟩, ?_⟩
    have hcol : 127 - (127 - p) = p := by omega
    rw [pixel, hcol, hbit]
  · rintro ⟨c, hc⟩ rfl
    rw [pixel_zero] at hc
    cases hc

/-- Two displays that show the same pixels hold the same buffer. -/
theorem fb_eq_of_dot_eq {d e : Display} (h : ∀ c r, d.dot c r = e.dot c r) : d.fb = e.fb := by
  refine Vector.ext fun r hr => BitVec.eq_of_getLsbD_eq fun p hp => ?_
  have hpix := h ⟨127 - p, by omega⟩ ⟨r, hr⟩
  have hcol : 127 - (127 - p) = p := by omega
  simpa only [Display.dot, pixel, hcol] using hpix

/-! ### The pixels that `write` covers (R82, R83) -/

/-- Whether `write(b, x, y)` flips the buffer pixel at column `c`, row `r`: the row is one the byte goes to and the
placed pattern shows at that column (R82). -/
def Display.covers (d : Display) (b : Byte) (x y : Nat) (c : Fin 128) (r : Fin 64) : Bool :=
  decide (r ∈ spriteRows d.mode y) && pixel (spriteMask d.mode b x) c

/-- `write` flips the covered pixels and no others (R82). -/
theorem dot_writeByte (d : Display) (b : Byte) (x y : Nat) (c : Fin 128) (r : Fin 64) :
    (d.writeByte b x y).2.dot c r = (d.dot c r ^^ d.covers b x y c r) := pixel_writeByte d b x y c r

/-- A `write` leaves covered what was covered: it keeps the mode. -/
@[simp] theorem covers_writeByte (d : Display) (b : Byte) (x y : Nat) :
    (d.writeByte b x y).2.covers b x y = d.covers b x y := rfl

/-- `write` reports erasure exactly when it covers a set pixel (R83). -/
theorem writeByte_reports_iff (d : Display) (b : Byte) (x y : Nat) :
    (d.writeByte b x y).1 = true ↔ ∃ c r, d.dot c r = true ∧ d.covers b x y c r = true := by
  simp only [Display.writeByte, List.any_eq_true, bne_iff_ne, row_ne_zero_iff_exists_pixel, pixel_and,
    Bool.and_eq_true, Display.dot, Display.covers, decide_eq_true_eq]
  constructor
  · rintro ⟨r, hr, c, hset, hmask⟩
    exact ⟨c, r, hset, hr, hmask⟩
  · rintro ⟨c, r, hset, hr, hmask⟩
    exact ⟨r, hr, c, hset, hmask⟩

/-- In each mode a byte goes to at least one row (R82). -/
theorem exists_mem_spriteRows (m : Mode) (y : Nat) : ∃ r, r ∈ spriteRows m y := by
  cases m with
  | low => exact ⟨_, List.mem_cons_self⟩
  | high => exact ⟨_, List.mem_cons_self⟩

/-- The placed pattern of a byte other than 0 shows at some column: bit `i` of the byte lies `7 - i` columns right of
the byte's own column, counted doubled in low resolution (R82). -/
theorem exists_pixel_spriteMask (m : Mode) {b : Byte} (h : b ≠ 0#8) (x : Nat) :
    ∃ c : Fin 128, pixel (spriteMask m b x) c = true := by
  obtain ⟨i, hi, hbit⟩ := exists_getLsbD_of_ne_zero h
  cases m with
  | low =>
    refine ⟨Fin.ofNat 128 (2 * x + 2 * (7 - i)), ?_⟩
    have hoff : ((2 * x + 2 * (7 - i)) % 128 + 128 - 2 * x % 128) % 128 = 2 * (7 - i) := by omega
    have hin : 2 * (7 - i) < 16 := by omega
    have hidx : 7 - 2 * (7 - i) / 2 = i := by omega
    rw [pixel_spriteMask_low _ _ _ (Fin.isLt _), Fin.val_ofNat, hoff, hidx, hbit, decide_eq_true hin]
    rfl
  | high =>
    refine ⟨Fin.ofNat 128 (x + (7 - i)), ?_⟩
    have hoff : ((x + (7 - i)) % 128 + 128 - x % 128) % 128 = 7 - i := by omega
    have hin : 7 - i < 8 := by omega
    have hidx : 7 - (7 - i) = i := by omega
    rw [pixel_spriteMask_high _ _ _ (Fin.isLt _), Fin.val_ofNat, hoff, hidx, hbit, decide_eq_true hin]
    rfl

/-- A byte other than 0 covers some pixel wherever it is written. -/
theorem exists_covers (d : Display) {b : Byte} (h : b ≠ 0#8) (x y : Nat) : ∃ c r, d.covers b x y c r = true := by
  obtain ⟨r, hr⟩ := exists_mem_spriteRows d.mode y
  obtain ⟨c, hc⟩ := exists_pixel_spriteMask d.mode h x
  exact ⟨c, r, by rw [Display.covers, hc, decide_eq_true hr]; rfl⟩

/-- `write` reports erasure exactly when some pixel goes from set to unset (R83). -/
theorem writeByte_reports_iff_cleared (d : Display) (b : Byte) (x y : Nat) :
    (d.writeByte b x y).1 = true ↔ ∃ c r, d.dot c r = true ∧ (d.writeByte b x y).2.dot c r = false := by
  rw [writeByte_reports_iff]
  refine exists_congr fun c => exists_congr fun r => and_congr_right fun hset => ?_
  simp [dot_writeByte, hset]

/-- The same `write` twice restores the buffer: each pixel is flipped twice or not at all (R83). -/
theorem fb_writeByte_twice (d : Display) (b : Byte) (x y : Nat) :
    ((d.writeByte b x y).2.writeByte b x y).2.fb = d.fb :=
  fb_eq_of_dot_eq fun c r => by
    rw [dot_writeByte, dot_writeByte, covers_writeByte, Bool.xor_assoc, Bool.xor_self, Bool.xor_false]

section
variable {d : Display} {b : Byte} {x y : Nat}

/-- The pixels a `write` changes are the covered ones, so "every changed pixel was unset" is "every covered pixel
was unset". -/
theorem covered_unset_of_changed_unset
    (h : ∀ c r, (d.writeByte b x y).2.dot c r ≠ d.dot c r → d.dot c r = false)
    (c : Fin 128) (r : Fin 64) (hc : d.covers b x y c r = true) : d.dot c r = false := by
  refine h c r ?_
  rw [dot_writeByte, hc]
  cases d.dot c r <;> decide

/-- Written over pixels that are all unset, a byte erases nothing (R83). -/
theorem writeByte_reports_false (h : ∀ c r, d.covers b x y c r = true → d.dot c r = false) :
    (d.writeByte b x y).1 = false := by
  refine Bool.eq_false_iff.mpr fun hrep => ?_
  obtain ⟨c, r, hset, hcov⟩ := (writeByte_reports_iff d b x y).mp hrep
  rw [h c r hcov] at hset
  cases hset

/-- After a byte other than 0 was written over unset pixels, the same `write` again erases one it had set (R83). -/
theorem writeByte_again_reports (hb : b ≠ 0#8) (h : ∀ c r, d.covers b x y c r = true → d.dot c r = false) :
    ((d.writeByte b x y).2.writeByte b x y).1 = true := by
  obtain ⟨c, r, hcov⟩ := exists_covers d hb x y
  have hset : (d.writeByte b x y).2.dot c r = true := by rw [dot_writeByte, h c r hcov, hcov]; rfl
  exact (writeByte_reports_iff _ b x y).mpr ⟨c, r, hset, by rw [covers_writeByte, hcov]⟩

end

/-- Settles O40: `write` reports exactly when it covers a set pixel, and what it covers does not depend on the
buffer. -/
theorem writeReportsErasureAndUndoesItself : Obligations.WriteReportsErasureAndUndoesItself := by
  intro d b x y
  refine ⟨writeByte_reports_iff_cleared d b x y, fb_writeByte_twice d b x y, fun hb hchanged => ?_⟩
  have hunset := covered_unset_of_changed_unset hchanged
  exact ⟨writeByte_reports_false hunset, writeByte_again_reports hb hunset⟩

/-! ### CLS and the expansion (R86, R101, R81) -/

/-- CLS clears the buffer and advances PC (R101). -/
theorem exec_cls (s : State) : exec .cls s = .next (s.withDisplay s.disp.clear) := rfl

/-- A new display and an advanced PC are the only changes of the display instructions. -/
theorem withDisplay_onlyDisplayPc (s : State) (d : Display) : OnlyDisplayPc s (s.withDisplay d) := rfl

/-- Settles O22, by the rows of a cleared buffer. -/
theorem clsClearsEveryRow : Obligations.ClsClearsEveryRow := by
  intro s
  exact ⟨_, exec_cls s, withDisplay_onlyDisplayPc s _, withDisplay_pc s _, clear_dirty _, clear_mode _,
    fun r => clear_row _ (r % 64) (Nat.mod_lt _ (by decide))⟩

/-- Settles O41: bit `p` of the expansion is bit `p / 2` of the byte, for `p` even and odd. -/
theorem expandDoublesEveryBit : Obligations.ExpandDoublesEveryBit := by
  intro b k hk
  have heven := getLsbD_expand b ⟨2 * k, by omega⟩
  have hodd := getLsbD_expand b ⟨2 * k + 1, by omega⟩
  have hhalf : 2 * k / 2 = k := by omega
  have hhalf' : (2 * k + 1) / 2 = k := by omega
  simp only [hhalf] at heven
  simp only [hhalf'] at hodd
  exact ⟨heven, hodd⟩

end Sys2Proof.Machine
end

section
/-! PROOFS. Control flow: the jump (spec 42_control_flow.md R110). -/

namespace Sys2Proof.Machine

/-- JP only loads PC (R110). -/
theorem exec_jp (nnn : Addr) (s : State) : exec (.jp nnn) s = .next (s.setPc (targetOf nnn)) := rfl

/-- Loading PC changes PC only. -/
theorem setPc_onlyPc (s : State) (t : Word) : OnlyPc s (s.setPc t) := rfl

/-- A 12-bit target is zero-extended: as a number it is the operand. -/
@[simp] theorem targetOf_toNat (nnn : Addr) : (targetOf nnn).toNat = nnn.toNat :=
  BitVec.toNat_setWidth_of_le (by decide)

/-- Settles O28: JP loads PC with its target, whose value is that of `nnn`. -/
theorem jumpGoesToItsTarget : Obligations.JumpGoesToItsTarget := by
  intro nnn s
  have hpc : (s.setPc (targetOf nnn)).pc.toNat = nnn.toNat := by rw [setPc_pc, targetOf_toNat]
  exact ⟨_, exec_jp nnn s, setPc_onlyPc s _, hpc⟩

end Sys2Proof.Machine
end

section
/-! PROOFS. The register loads and ADD Vx, kk: one register write and no flag (spec 43_alu.md R120 to R122). -/

namespace Sys2Proof.Machine

/-- LD Vx, kk writes its immediate (R120). -/
theorem exec_ldImm (x : RegIdx) (kk : Byte) (s : State) : exec (.ldImm x kk) s = writeReg x kk s := rfl

/-- ADD Vx, kk writes the 8-bit sum (R121). -/
theorem exec_addImm (x : RegIdx) (kk : Byte) (s : State) : exec (.addImm x kk) s = writeReg x (s.getV x + kk) s := rfl

/-- LD Vx, Vy writes Vy (R122). -/
theorem exec_ldReg (x y : RegIdx) (s : State) : exec (.ldReg x y) s = writeReg x (s.getV y) s := rfl

/-- A flagless register write completes, advances PC, and of the registers writes `x` alone, `VF` as any other. -/
theorem writeReg_writes_only (x : RegIdx) (b : Byte) (s : State) :
    ∃ t, writeReg x b s = .next t ∧ OnlyRegsPc s t ∧ t.pc = s.pc + 2#16 ∧ RegsExcept x s t ∧ t.getV x = b := by
  have hframe : OnlyRegsPc s (s.setV x b).advance := rfl
  have hother : RegsExcept x s (s.setV x b).advance := fun r hr => by rw [advance_getV, getV_setV_other s b hr]
  have hx : (s.setV x b).advance.getV x = b := by rw [advance_getV, getV_setV_same]
  exact ⟨_, rfl, hframe, by rw [advance_pc, setV_pc], hother, hx⟩

/-- Settles O33: each of the three is one flagless register write; the 8-bit sum wraps modulo 256. -/
theorem loadsAndAddImmediate : Obligations.LoadsAndAddImmediate := by
  intro x y kk s
  rw [exec_ldImm, exec_addImm, exec_ldReg]
  refine ⟨writeReg_writes_only x kk s, ?_, writeReg_writes_only x (s.getV y) s⟩
  obtain ⟨t, hnext, hframe, hpc, hother, hx⟩ := writeReg_writes_only x (s.getV x + kk) s
  exact ⟨t, hnext, hframe, hpc, hother, by rw [hx, BitVec.toNat_add]⟩

end Sys2Proof.Machine
end

section
/-! PROOFS. The index register: LD I and the low-resolution glyph address (spec 46_index_memory.md R160, R162). -/

namespace Sys2Proof.Machine

/-- LD I writes its operand to `I` (R160). -/
theorem exec_ldI (nnn : Addr) (s : State) : exec (.ldI nnn) s = writeIndex nnn s := rfl

/-- LD F writes the low-resolution glyph address of the whole byte `Vx` to `I` (R162). -/
theorem exec_ldF (x : RegIdx) (s : State) : exec (.ldF x) s = writeIndex (loGlyphAddr (s.getV x)) s := rfl

/-- An index write completes, advances PC and changes nothing else but `I`. -/
theorem writeIndex_writes_only (a : Addr) (s : State) :
    ∃ t, writeIndex a s = .next t ∧ OnlyIndexPc s t ∧ t.pc = s.pc + 2#16 ∧ t.i = a :=
  ⟨_, rfl, rfl, advance_pc s, rfl⟩

/-- The low-resolution glyph address is never reduced: `5 * 255` is below 4096 (R162). -/
@[simp] theorem loGlyphAddr_toNat (b : Byte) : (loGlyphAddr b).toNat = 5 * b.toNat := by
  have hfits : 5 * b.toNat < 2 ^ 12 := by omega
  exact (BitVec.toNat_ofNat _ _).trans (Nat.mod_eq_of_lt hfits)

/-- Settles O48: both are one index write, and the glyph address of a whole byte fits 12 bits. -/
theorem indexLoadAndLowGlyph : Obligations.IndexLoadAndLowGlyph := by
  refine ⟨fun nnn s => ?_, fun x s => ?_⟩
  · rw [exec_ldI]
    exact writeIndex_writes_only nnn s
  · rw [exec_ldF]
    obtain ⟨t, hnext, hframe, hpc, hi⟩ := writeIndex_writes_only (loGlyphAddr (s.getV x)) s
    exact ⟨t, hnext, hframe, hpc, by rw [hi, loGlyphAddr_toNat]⟩

end Sys2Proof.Machine
end

section
/-! PROOFS. The opcode map: decoding and encoding undo each other, and the decoder selects the rows of the map
(spec 30_encoding.md R62 to R66). -/

namespace Sys2Proof

/-! ### Decoding an encoding (R62, R63) -/

/-- Decoding undoes encoding: by format, the fields of the encoded word are the operands (R63). -/
theorem decode_encode (i : Instr) : decode (encode i) = some i := by
  cases i
  case scd n => revert n; decide
  case cls | ret | scr | scl | exit | low | high => rfl
  case jp | call | ldI | jpV0 => simp [encode, decode]
  case seImm | sneImm | ldImm | addImm | rnd => simp [encode, decode]
  case seReg | sneReg | drw => simp [encode, decode]
  case ldReg | orReg | andReg | xorReg | addReg | subReg | shrReg | subnReg | shlReg => simp [encode, decode, decode8]
  case skp | sknp => simp [encode, decode, decodeE]
  case ldVxDt | ldVxK | ldDtVx | ldStVx | addI | ldF | ldHf | ldB | stBlock | ldBlock =>
    simp [encode, decode, decodeF]

/-- The two bytes of an instruction decode to it and leave the rest (R44). -/
theorem decodeBytes_encodeBytes (i : Instr) (rest : List Byte) :
    decodeBytes (encodeBytes i ++ rest) = .ok (i, rest) := by
  simp [encodeBytes, decodeBytes_cons, decode_encode]

/-- Settles O1: by format, reading the fields of an encoded word gives the operands back. -/
theorem encodingDecodesBack : Obligations.EncodingDecodesBack :=
  fun i _ => ⟨decode_encode i, fun rest => by rw [decodeBytes_encodeBytes]; rfl⟩

/-! ### Encoding a decoded word (R62) -/

/-- A word is its fields in format NNN. -/
theorem encNNN_fields (op : Word) : encNNN (famField op) (nnnField op) = op :=
  (BitVec.extractLsb'_append_extractLsb'_eq_extractLsb' rfl).trans BitVec.extractLsb'_eq_self

/-- A word is its fields in format XKK. -/
theorem encXKK_fields (op : Word) : encXKK (famField op) (xField op) (kkField op) = op := by
  have hhi : famField op ++ xField op = op.extractLsb' 8 8 :=
    BitVec.extractLsb'_append_extractLsb'_eq_extractLsb' rfl
  rw [encXKK, hhi]
  exact (BitVec.extractLsb'_append_extractLsb'_eq_extractLsb' rfl).trans BitVec.extractLsb'_eq_self

/-- A word is its fields in format XYN. -/
theorem encXYN_fields (op : Word) : encXYN (famField op) (xField op) (yField op) (nField op) = op := by
  have hhi : famField op ++ xField op = op.extractLsb' 8 8 :=
    BitVec.extractLsb'_append_extractLsb'_eq_extractLsb' rfl
  have hmid : op.extractLsb' 8 8 ++ yField op = op.extractLsb' 4 12 :=
    BitVec.extractLsb'_append_extractLsb'_eq_extractLsb' rfl
  rw [encXYN, hhi, hmid]
  exact (BitVec.extractLsb'_append_extractLsb'_eq_extractLsb' rfl).trans BitVec.extractLsb'_eq_self

/-- Family 0: what the decoder tests and the operands are all of the word. -/
theorem encode_of_decode0 {op : Word} {i : Instr} (hfam : famField op = 0x0#4) (h : decode0 op = some i) :
    encode i = op := by
  unfold decode0 at h
  split_ifs at h with hscd hcls hret hscr hscl hexit hlow hhigh
  · obtain ⟨hx, hy⟩ := hscd
    cases h
    rw [← encXYN_fields op, hfam, hx, hy]
    simp only [encode, nField_encXYN]; rfl
  all_goals
    cases h
    rw [← encNNN_fields op, hfam]
    simp only [encode, *]; rfl


/-- Family 8: what the decoder tests and the operands are all of the word. -/
theorem encode_of_decode8 {op : Word} {i : Instr} (hfam : famField op = 0x8#4) (h : decode8 op = some i) :
    encode i = op := by
  rw [← encXYN_fields op, hfam]
  unfold decode8 at h
  split at h <;> cases h
  all_goals simp only [encode, *]

/-- Family E: what the decoder tests and the operands are all of the word. -/
theorem encode_of_decodeE {op : Word} {i : Instr} (hfam : famField op = 0xE#4) (h : decodeE op = some i) :
    encode i = op := by
  rw [← encXKK_fields op, hfam]
  unfold decodeE at h
  split at h <;> cases h
  all_goals simp only [encode, *]

/-- Family F: what the decoder tests and the operands are all of the word. -/
theorem encode_of_decodeF {op : Word} {i : Instr} (hfam : famField op = 0xF#4) (h : decodeF op = some i) :
    encode i = op := by
  rw [← encXKK_fields op, hfam]
  unfold decodeF at h
  split at h <;> cases h
  all_goals simp only [encode, *]

/-- Encoding undoes decoding: each arm of the decoder fixes the bits of the word that are not in its operands. -/
theorem encode_of_decode {op : Word} {i : Instr} (h : decode op = some i) : encode i = op := by
  unfold decode at h
  split at h
  case h_1 hfam => exact encode_of_decode0 hfam h
  case h_9 hfam => exact encode_of_decode8 hfam h
  case h_15 hfam => exact encode_of_decodeE hfam h
  case h_16 hfam => exact encode_of_decodeF hfam h
  case h_17 => cases h
  case h_6 hfam | h_10 hfam =>
    split_ifs at h with hn
    cases h
    rw [encode, ← hfam, ← hn, encXYN_fields]
  case h_14 hfam =>
    cases h
    rw [encode, ← hfam, encXYN_fields]
  case h_2 hfam | h_3 hfam | h_11 hfam | h_12 hfam =>
    cases h
    rw [encode, ← hfam, encNNN_fields]
  case h_4 hfam | h_5 hfam | h_7 hfam | h_8 hfam | h_13 hfam =>
    cases h
    rw [encode, ← hfam, encXKK_fields]

/-- Settles O2: no arm of the decoder drops a bit. -/
theorem decodedWordEncodesBack : Obligations.DecodedWordEncodesBack := fun _ _ => encode_of_decode

/-! ### The rows of the map (R65) -/

/-- Every instruction's encoding is selected by its own row. -/
theorem encode_fits_row : ∀ i : Instr, Laws.FitsRow.Statement i
  | .scd n => Laws.FitsRow.scd n
  | .cls => Laws.FitsRow.cls
  | .ret => Laws.FitsRow.ret
  | .scr => Laws.FitsRow.scr
  | .scl => Laws.FitsRow.scl
  | .exit => Laws.FitsRow.exit
  | .low => Laws.FitsRow.low
  | .high => Laws.FitsRow.high
  | .jp nnn => Laws.FitsRow.jp nnn
  | .call nnn => Laws.FitsRow.call nnn
  | .seImm x kk => Laws.FitsRow.seImm x kk
  | .sneImm x kk => Laws.FitsRow.sneImm x kk
  | .seReg x y => Laws.FitsRow.seReg x y
  | .ldImm x kk => Laws.FitsRow.ldImm x kk
  | .addImm x kk => Laws.FitsRow.addImm x kk
  | .ldReg x y => Laws.FitsRow.ldReg x y
  | .orReg x y => Laws.FitsRow.orReg x y
  | .andReg x y => Laws.FitsRow.andReg x y
  | .xorReg x y => Laws.FitsRow.xorReg x y
  | .addReg x y => Laws.FitsRow.addReg x y
  | .subReg x y => Laws.FitsRow.subReg x y
  | .shrReg x y => Laws.FitsRow.shrReg x y
  | .subnReg x y => Laws.FitsRow.subnReg x y
  | .shlReg x y => Laws.FitsRow.shlReg x y
  | .sneReg x y => Laws.FitsRow.sneReg x y
  | .ldI nnn => Laws.FitsRow.ldI nnn
  | .jpV0 nnn => Laws.FitsRow.jpV0 nnn
  | .rnd x kk => Laws.FitsRow.rnd x kk
  | .drw x y n => Laws.FitsRow.drw x y n
  | .skp x => Laws.FitsRow.skp x
  | .sknp x => Laws.FitsRow.sknp x
  | .ldVxDt x => Laws.FitsRow.ldVxDt x
  | .ldVxK x => Laws.FitsRow.ldVxK x
  | .ldDtVx x => Laws.FitsRow.ldDtVx x
  | .ldStVx x => Laws.FitsRow.ldStVx x
  | .addI x => Laws.FitsRow.addI x
  | .ldF x => Laws.FitsRow.ldF x
  | .ldHf x => Laws.FitsRow.ldHf x
  | .ldB x => Laws.FitsRow.ldB x
  | .stBlock x => Laws.FitsRow.stBlock x
  | .ldBlock x => Laws.FitsRow.ldBlock x

/-- Two rows of the map that agree on every bit both fix are one row. -/
theorem row_eq_of_compatible : ∀ r ∈ opcodeTable, ∀ q ∈ opcodeTable,
    r.value &&& q.mask = q.value &&& r.mask → r = q := by decide

/-- The rows are numbered. -/
theorem row_eq_of_num_eq : ∀ r ∈ opcodeTable, ∀ q ∈ opcodeTable, r.num = q.num → r = q := by decide

/-- No two rows select one opcode: they would agree on every bit both fix. -/
theorem row_eq_of_selects {op : Word} {r q : OpcodeRow} (hr : r ∈ opcodeTable) (hq : q ∈ opcodeTable)
    (hrsel : op &&& r.mask = r.value) (hqsel : op &&& q.mask = q.value) : r = q := by
  refine row_eq_of_compatible r hr q hq ?_
  rw [← hrsel, ← hqsel, BitVec.and_assoc, BitVec.and_assoc, BitVec.and_comm r.mask]

/-- A word that decodes is selected by the row of its instruction, because it is that instruction's encoding. -/
theorem row_selects_of_decode {op : Word} {i : Instr} (h : decode op = some i) :
    ∃ r ∈ opcodeTable, r.num = i.row ∧ op &&& r.mask = r.value := by
  obtain ⟨r, hr, hnum, hsel⟩ := encode_fits_row i
  rw [encode_of_decode h] at hsel
  exact ⟨r, hr, hnum, eq_of_beq hsel⟩

/-- A word that agrees with a match under a mask does so field by field. -/
theorem field_of_masked {op m v : Word} (h : op &&& m = v) (lo w : Nat) :
    op.extractLsb' lo w &&& m.extractLsb' lo w = v.extractLsb' lo w := by
  rw [← h]; exact BitVec.extractLsb'_and.symm

/-- A word a row selects decodes: the fields that the row fixes are those an arm of the decoder asks for. -/
theorem decode_of_row {op : Word} {r : OpcodeRow} (hr : r ∈ opcodeTable) (h : op &&& r.mask = r.value) :
    ∃ i, decode op = some i := by
  have hfam : famField op &&& _ = _ := field_of_masked h 12 4
  have hx : xField op &&& _ = _ := field_of_masked h 8 4
  have hy : yField op &&& _ = _ := field_of_masked h 4 4
  have hn : nField op &&& _ = _ := field_of_masked h 0 4
  have hkk : kkField op &&& _ = _ := field_of_masked h 0 8
  have hnnn : nnnField op &&& _ = _ := field_of_masked h 0 12
  have full4 (v : BitVec 4) : v &&& 15#4 = v := BitVec.and_allOnes
  have full8 (v : BitVec 8) : v &&& 255#8 = v := BitVec.and_allOnes
  have full12 (v : BitVec 12) : v &&& 4095#12 = v := BitVec.and_allOnes
  clear h
  fin_cases hr
  all_goals
    simp [full4, full8, full12] at hfam hx hy hn hkk hnnn
    simp [decode, decode0, decode8, decodeE, decodeF, hfam, hx, hy, hn, hkk, hnnn]

/-- A row selects a word exactly when the word decodes to an instruction of that row. -/
theorem row_selects_iff {op : Word} {r : OpcodeRow} (hr : r ∈ opcodeTable) :
    op &&& r.mask = r.value ↔ ∃ i, decode op = some i ∧ i.row = r.num := by
  constructor
  · intro hsel
    obtain ⟨i, hdec⟩ := decode_of_row hr hsel
    obtain ⟨q, hq, hnum, hqsel⟩ := row_selects_of_decode hdec
    exact ⟨i, hdec, by rw [row_eq_of_selects hr hq hsel hqsel, hnum]⟩
  · rintro ⟨i, hdec, hrow⟩
    obtain ⟨q, hq, hnum, hqsel⟩ := row_selects_of_decode hdec
    rwa [row_eq_of_num_eq r hr q hq (hrow.symm.trans hnum.symm)]

/-- Settles O3: rows and instructions correspond, and rows that select one word agree on every bit both fix. -/
theorem decodeFollowsOpcodeMap : Obligations.DecodeFollowsOpcodeMap :=
  ⟨fun _ _ hr => row_selects_iff hr, fun _ _ _ hr hq => row_eq_of_selects hr hq⟩

/-- Settles O5: these are words the model's tests decode. -/
theorem listedWordsDecode : Obligations.ListedWordsDecode :=
  ⟨Tests.test_decode_scd, Tests.test_decode_ldImm, Tests.test_decode_shrReg, Tests.test_decode_drw, by decide,
    Tests.test_decode_jpV0, Tests.test_decode_skp⟩

/-! ### The reserved encodings (R66) -/

theorem famField_toNat (op : Word) : (famField op).toNat = op.toNat / 0x1000 := by
  simp only [famField, BitVec.extractLsb'_toNat, Nat.shiftRight_eq_div_pow]
  omega

theorem xField_toNat (op : Word) : (xField op).toNat = op.toNat / 0x100 % 0x10 := by
  simp only [xField, BitVec.extractLsb'_toNat, Nat.shiftRight_eq_div_pow]

theorem yField_toNat (op : Word) : (yField op).toNat = op.toNat / 0x10 % 0x10 := by
  simp only [yField, BitVec.extractLsb'_toNat, Nat.shiftRight_eq_div_pow]

theorem nField_toNat (op : Word) : (nField op).toNat = op.toNat % 0x10 := BitVec.extractLsb'_toNat ..

theorem kkField_toNat (op : Word) : (kkField op).toNat = op.toNat % 0x100 := BitVec.extractLsb'_toNat ..

theorem nnnField_toNat (op : Word) : (nnnField op).toNat = op.toNat % 0x1000 := BitVec.extractLsb'_toNat ..

/-- Family 0 rejects all but the eight listed patterns. -/
theorem decode0_eq_none_iff {op : Word} (h : op.toNat < 0x1000) :
    decode0 op = none ↔ ¬ (0x00C0 ≤ op.toNat ∧ op.toNat ≤ 0x00CF) ∧
      op.toNat ∉ [0x00E0, 0x00EE, 0x00FB, 0x00FC, 0x00FD, 0x00FE, 0x00FF] := by
  unfold decode0
  simp only [← BitVec.toNat_inj, xField_toNat, yField_toNat, nnnField_toNat, BitVec.toNat_ofNat,
    Nat.mod_eq_of_lt h, List.mem_cons, List.not_mem_nil, or_false]
  split_ifs <;> simp only [false_iff, true_iff] <;> omega

/-- Family 8 rejects the seven unlisted low nibbles. -/
theorem decode8_eq_none_iff (op : Word) :
    decode8 op = none ↔ op.toNat % 0x10 ∈ [0x8, 0x9, 0xA, 0xB, 0xC, 0xD, 0xF] := by
  unfold decode8
  simp only [List.mem_cons, List.not_mem_nil, or_false]
  split
  all_goals simp_all [← BitVec.toNat_inj, nField_toNat]
  omega

/-- Family E rejects all but two low bytes. -/
theorem decodeE_eq_none_iff (op : Word) : decodeE op = none ↔ op.toNat % 0x100 ∉ [0x9E, 0xA1] := by
  unfold decodeE
  split <;> simp_all [← BitVec.toNat_inj, kkField_toNat]

/-- Family F rejects all but ten low bytes. -/
theorem decodeF_eq_none_iff (op : Word) :
    decodeF op = none ↔ op.toNat % 0x100 ∉ [0x07, 0x0A, 0x15, 0x18, 0x1E, 0x29, 0x30, 0x33, 0x55, 0x65] := by
  unfold decodeF
  split <;> simp_all [← BitVec.toNat_inj, kkField_toNat]

/-- The words that decode to nothing are those of the table of reserved encodings, family by family. -/
theorem decode_eq_none_iff (op : Word) : decode op = none ↔ Machine.reservedWord op = true := by
  have hfam := famField_toNat op
  unfold decode
  split
  case h_1 h =>
    rw [h] at hfam
    have hlt : op.toNat < 0x1000 := by simp at hfam; omega
    simp [Machine.reservedWord, ← hfam, decode0_eq_none_iff hlt]
    omega
  case h_17 => simp_all [← BitVec.toNat_inj]; omega
  all_goals
    rename_i h
    rw [h] at hfam
    simp [Machine.reservedWord, ← hfam, decode8_eq_none_iff, decodeE_eq_none_iff, decodeF_eq_none_iff,
      ← BitVec.toNat_inj, nField_toNat]

end Sys2Proof
end

section
/-! PROOFS. What each instruction leaves as it was (spec 10_state.md R11, R14, R15, R18 to R22). -/

namespace Sys2Proof.Machine

/-- What instruction `i` leaves alone on the way from `s` to `t`: every piece of the state that only some instructions
write, under the condition that `i` is none of them. A piece that `t` shares with `s` by definition needs no proof. -/
structure ExecFrame (i : Instr) (s t : State) : Prop where
  flag : writesVf i = false → t.getV vf = s.getV vf := by intros; rfl
  index : (∀ nnn, i ≠ .ldI nnn) → (∀ x, i ≠ .addI x) → (∀ x, i ≠ .ldF x) → (∀ x, i ≠ .ldHf x) → t.i = s.i := by
    intros; rfl
  sp : (∀ nnn, i ≠ .call nnn) → i ≠ .ret → t.sp = s.sp := by intros; rfl
  stack : (∀ nnn, i ≠ .call nnn) → i ≠ .ret → t.stack = s.stack := by intros; rfl
  dt : (∀ x, i ≠ .ldDtVx x) → t.dt = s.dt := by intros; rfl
  st : (∀ x, i ≠ .ldStVx x) → t.st = s.st := by intros; rfl
  mem : (∀ x, i ≠ .ldB x) → (∀ x, i ≠ .stBlock x) → t.mem = s.mem := by intros; rfl
  mode : i ≠ .low → i ≠ .high → t.disp.mode = s.disp.mode := by intros; rfl
  fb : writesBuffer i = false → t.disp.fb = s.disp.fb := by intros; rfl
  dirty : writesBuffer i = false → t.disp.dirty = s.disp.dirty := by intros; rfl
  waiting : (∀ x, i ≠ .ldVxK x) → t.waiting = s.waiting := by intros; rfl

/-- A fault writes the status state only (R206). -/
theorem ExecFrame.ofFault (i : Instr) (s : State) (c : FaultCause) (op : Word) :
    ExecFrame i s (raiseFault c op s) := {}

/-- A write of a register other than `VF` leaves `VF`. -/
theorem getV_vf_setV {x : RegIdx} (s : State) (b : Byte) (h : (x == vf) = false) :
    (s.setV x b).getV vf = s.getV vf :=
  getV_setV_other s b (Ne.symm (ne_of_beq_false h))

/-- A block load that stops below `VF` leaves `VF`. -/
theorem getV_vf_loadBlock {x : RegIdx} (s : State) (h : (x == vf) = false) :
    (s.loadBlock x).getV vf = s.getV vf := by
  have hx : x.toNat ≠ vf.toNat := fun e => ne_of_beq_false h (BitVec.eq_of_toNat_eq e)
  have hvf : vf.toNat = 15 := rfl
  rw [getV_loadBlock, if_neg (by omega)]

/-- A side scroll keeps the mode. -/
@[simp] theorem scrollSide_mode (d : Display) (n : Int) : (d.scrollSide n).mode = d.mode := by
  unfold Display.scrollSide; split_ifs <;> rfl

/-- Every instruction keeps what it does not write. -/
theorem exec_frame {i : Instr} {s t : State} (h : exec i s = .next t) : ExecFrame i s t := by
  cases i
  case scd | cls => cases h; exact { fb := nofun, dirty := nofun }
  case scr | scl => cases h; exact { mode := fun _ _ => scrollSide_mode _ _, fb := nofun, dirty := nofun }
  case low => cases h; exact { mode := fun hne _ => absurd rfl hne }
  case high => cases h; exact { mode := fun _ hne => absurd rfl hne }
  case exit | jp | jpV0 | seImm | sneImm | seReg | sneReg | skp | sknp => cases h; exact {}
  case ldImm | addImm | ldReg | orReg | andReg | xorReg | rnd | ldVxDt =>
    cases h; exact { flag := getV_vf_setV _ _ }
  case addReg | subReg | shrReg | subnReg | shlReg => cases h; exact { flag := nofun }
  case ldDtVx x => cases h; exact { dt := fun hne => absurd rfl (hne x) }
  case ldStVx x => cases h; exact { st := fun hne => absurd rfl (hne x) }
  case ldI nnn => cases h; exact { index := fun hne _ _ _ => absurd rfl (hne nnn) }
  case addI x => cases h; exact { index := fun _ hne _ _ => absurd rfl (hne x) }
  case ldF x => cases h; exact { index := fun _ _ hne _ => absurd rfl (hne x) }
  case ldHf x => cases h; exact { index := fun _ _ _ hne => absurd rfl (hne x) }
  case ldVxK x =>
    cases h
    rcases keyWaitMoment_cases x s with ⟨c, host, -, e⟩ | ⟨host, -, e⟩ <;> rw [e]
    · exact { flag := getV_vf_setV _ _, waiting := fun hne => absurd rfl (hne x) }
    · exact { waiting := fun hne => absurd rfl (hne x) }
  case call nnn =>
    rcases execCall_inv h with ⟨_, rfl⟩ | ⟨_, rfl⟩
    · exact { sp := fun hne _ => absurd rfl (hne nnn), stack := fun hne _ => absurd rfl (hne nnn) }
    · exact .ofFault ..
  case ret =>
    rcases execRet_inv h with ⟨_, _, rfl⟩ | ⟨_, rfl⟩
    · exact { sp := fun _ hne => absurd rfl hne }
    · exact .ofFault ..
  case drw =>
    rcases execDrw_inv h with ⟨_, rfl⟩ | ⟨_, rfl⟩
    · exact { flag := nofun, mode := fun _ _ => writeAll_mode .., fb := nofun, dirty := nofun }
    · exact .ofFault ..
  case ldB x =>
    rcases execLdB_inv h with ⟨_, rfl⟩ | ⟨_, rfl⟩
    · exact { mem := fun hne _ => absurd rfl (hne x) }
    · exact .ofFault ..
  case stBlock x =>
    rcases execStBlock_inv h with ⟨_, rfl⟩ | ⟨_, rfl⟩
    · exact { mem := fun _ hne => absurd rfl (hne x) }
    · exact .ofFault ..
  case ldBlock =>
    rcases execLdBlock_inv h with ⟨_, rfl⟩ | ⟨_, rfl⟩
    · exact { flag := getV_vf_loadBlock _ }
    · exact .ofFault ..

/-- Settles O16, by the frame of the instructions. -/
theorem onlyFlagWritersChangeVf : Obligations.OnlyFlagWritersChangeVf :=
  fun _ _ _ hflag h => (exec_frame h).flag hflag

/-- Settles O17, by the frame of the instructions. -/
theorem onlyTimerWritersChangeTimers : Obligations.OnlyTimerWritersChangeTimers :=
  fun _ _ _ h => ⟨(exec_frame h).dt, (exec_frame h).st⟩

/-- Settles O18, by the frame of the instructions. -/
theorem onlyStoresChangeMemory : Obligations.OnlyStoresChangeMemory :=
  fun _ _ _ hB hBlock h _ => by rw [(exec_frame h).mem hB hBlock]

/-- Settles O19, by the frame of the instructions. -/
theorem onlyCallAndRetChangeStack : Obligations.OnlyCallAndRetChangeStack :=
  fun _ _ _ hcall hret h => ⟨(exec_frame h).sp hcall hret, (exec_frame h).stack hcall hret⟩

/-- Settles O20, by the frame of the instructions. -/
theorem onlyDisplayInstructionsChangeDisplay : Obligations.OnlyDisplayInstructionsChangeDisplay :=
  fun _ _ _ h => ⟨(exec_frame h).mode, fun hbuf => ⟨(exec_frame h).fb hbuf, (exec_frame h).dirty hbuf⟩⟩

end Sys2Proof.Machine
end

section
/-! PROOFS. The legal states: every step keeps them, and reset is one (spec 10_state.md R13, R15, R19, 60_exceptions.md
R206). -/

namespace Sys2Proof.Machine

/-! ### The parts of legality -/

theorem stackLegal_iff {s : State} :
    s.stackLegal = true ↔ ∀ k : Fin 16, k.val < s.sp.toNat → (s.stack[k.val]).toNat ≤ 0xFFE := decide_eq_true_iff

/-- A core that is not FAULTED holds no record. -/
theorem recordLegal_of_not_faulted {s : State} (h : s.status ≠ .faulted) : s.recordLegal = true := by
  cases hs : s.status <;> simp_all [State.recordLegal]

/-- The record a fault writes is legal. -/
theorem recordLegal_raiseFault {c : FaultCause} (hc : c ≠ .none) (op : Word) (s : State) :
    (raiseFault c op s).recordLegal = true := by
  simp [State.recordLegal, hc]

theorem waitLegal_of_none {s : State} (h : s.waiting = none) : s.waitLegal = true := by
  simp [State.waitLegal, h]

theorem waitLegal_iff_of_some {s : State} {x : RegIdx} (h : s.waiting = some x) :
    s.waitLegal = true ↔ s.status = .running ∧ s.fetchOpcode = some (encode (.ldVxK x)) := by
  simp [State.waitLegal, h]

/-! ### The program counter after an instruction (R13) -/

section
variable {s t : State}

/-- Going on from an address a fetch can use, by one instruction or by a skip, stays within the bound. -/
theorem advance_pc_le (h : s.pc.toNat ≤ 0xFFE) : (s.pc + 2#16).toNat ≤ 0x10FE := by
  rw [BitVec.toNat_add]; simp only [BitVec.toNat_ofNat]; omega

theorem skip_pc_le (h : s.pc.toNat ≤ 0xFFE) (c : Bool) : (if c then s.pc + 4#16 else s.pc + 2#16).toNat ≤ 0x10FE := by
  cases c
  · exact advance_pc_le h
  · simp only [if_true, BitVec.toNat_add, BitVec.toNat_ofNat]; omega

theorem targetOf_le (nnn : Addr) : (targetOf nnn).toNat ≤ 0x10FE := by
  rw [targetOf_toNat]; omega

/-- The target of JP V0 is the exact sum (R116). -/
theorem offsetTarget_toNat (s : State) (nnn : Addr) : (s.offsetTarget nnn).toNat = nnn.toNat + (s.getV 0#4).toNat := by
  rw [State.offsetTarget, BitVec.toNat_add, targetOf_toNat, BitVec.toNat_setWidth]
  omega

/-- RET goes to the popped address plus 2, exactly (R102). -/
theorem returnTarget_toNat (a : Addr) : (returnTarget a).toNat = a.toNat + 2 := by
  rw [returnTarget, BitVec.toNat_add, targetOf_toNat, BitVec.toNat_ofNat]
  omega

/-- An instruction fetched at an address up to 0xFFE leaves `PC` at most 0x10FE: the largest target is that of
JP V0 (R13). -/
theorem exec_pc_le {i : Instr} (hpc : s.pc.toNat ≤ 0xFFE) (h : exec i s = .next t) : t.pc.toNat ≤ 0x10FE := by
  have hkeep : s.pc.toNat ≤ 0x10FE := by omega
  cases i
  case seImm | sneImm | seReg | sneReg | skp | sknp => cases h; exact skip_pc_le hpc _
  case jp => cases h; exact targetOf_le _
  case jpV0 nnn => cases h; rw [setPc_pc, offsetTarget_toNat]; omega
  case exit => cases h; exact hkeep
  case call =>
    rcases execCall_inv h with ⟨_, rfl⟩ | ⟨_, rfl⟩
    exacts [targetOf_le _, hkeep]
  case ret =>
    rcases execRet_inv h with ⟨_, _, rfl⟩ | ⟨_, rfl⟩
    · simp only [returnTarget_toNat]; omega
    · exact hkeep
  case drw =>
    rcases execDrw_inv h with ⟨_, rfl⟩ | ⟨_, rfl⟩
    exacts [advance_pc_le hpc, hkeep]
  case ldB =>
    rcases execLdB_inv h with ⟨_, rfl⟩ | ⟨_, rfl⟩
    exacts [advance_pc_le hpc, hkeep]
  case stBlock =>
    rcases execStBlock_inv h with ⟨_, rfl⟩ | ⟨_, rfl⟩
    exacts [advance_pc_le hpc, hkeep]
  case ldBlock =>
    rcases execLdBlock_inv h with ⟨_, rfl⟩ | ⟨_, rfl⟩
    exacts [advance_pc_le hpc, hkeep]
  case ldVxK x =>
    cases h
    rcases keyWaitMoment_cases x s with ⟨_, _, -, e⟩ | ⟨_, -, e⟩ <;> rw [e]
    exacts [advance_pc_le hpc, hkeep]
  all_goals (cases h; exact advance_pc_le hpc)

/-! ### Memory and the stack after an instruction (R15, R19) -/

/-- Every instruction keeps memory canonical: the two stores check their range first. -/
theorem exec_mem_wf {i : Instr} (hwf : Memory.wf s.mem = true) (h : exec i s = .next t) : Memory.wf t.mem = true := by
  have hframe := exec_frame h
  cases i
  case ldB x =>
    rcases execLdB_inv h with ⟨hin, rfl⟩ | ⟨_, rfl⟩
    · exact Memory.writeList_wf _ hwf (by rw [bcdDigits_length]; exact hin)
    · exact hwf
  case stBlock x =>
    rcases execStBlock_inv h with ⟨hin, rfl⟩ | ⟨_, rfl⟩
    · exact Memory.writeList_wf _ hwf (by rw [regBlock_length]; exact hin)
    · exact hwf
  all_goals rw [hframe.mem nofun nofun]; exact hwf

/-- The low 12 bits of an address as a number. -/
theorem low12_toNat (pc : Word) : (pc.extractLsb' 0 12).toNat = pc.toNat % 4096 := BitVec.extractLsb'_toNat ..

/-- CALL pushes an address of 12 bits that a fetch has used. -/
theorem stackLegal_push {a : Addr} (hs : s.sp.toNat < 16) (hsp : t.sp.toNat = s.sp.toNat + 1)
    (hstack : t.stack = s.stack.set s.sp.toNat a hs) (ha : a.toNat ≤ 0xFFE) (h : s.stackLegal = true) :
    t.stackLegal = true := by
  rw [stackLegal_iff] at h ⊢
  intro k hk
  simp only [hstack, Vector.getElem_set]
  split
  · exact ha
  · exact h k (by omega)

/-- Fewer frames of the same slots stay legal. -/
theorem stackLegal_of_le (hsp : t.sp.toNat ≤ s.sp.toNat) (hstack : t.stack = s.stack)
    (h : s.stackLegal = true) : t.stackLegal = true := by
  rw [stackLegal_iff] at h ⊢
  intro k hk
  simp only [hstack]
  exact h k (by omega)

theorem sp_succ_toNat {sp : BitVec 5} (h : sp.toNat < 16) : (sp + 1#5).toNat = sp.toNat + 1 := by
  rw [BitVec.toNat_add, BitVec.toNat_ofNat]; omega

theorem sp_pred_toNat {sp : BitVec 5} (h : sp ≠ 0#5) : (sp - 1#5).toNat = sp.toNat - 1 := by
  have h0 : sp.toNat ≠ 0 := fun e => h (BitVec.eq_of_toNat_eq e)
  rw [BitVec.toNat_sub, BitVec.toNat_ofNat]; omega

/-- Every instruction keeps the stack legal. -/
theorem exec_stack_legal {i : Instr} (hpc : s.pc.toNat ≤ 0xFFE) (hsp : s.sp.toNat ≤ 16) (hstack : s.stackLegal = true)
    (h : exec i s = .next t) : t.sp.toNat ≤ 16 ∧ t.stackLegal = true := by
  have hframe := exec_frame h
  cases i
  case call nnn =>
    rcases execCall_inv h with ⟨hs, rfl⟩ | ⟨_, rfl⟩
    · have hsucc := sp_succ_toNat hs
      have haddr : (s.pc.extractLsb' 0 12).toNat ≤ 0xFFE := by
        rw [low12_toNat]; omega
      exact ⟨hsucc.le.trans hs, stackLegal_push hs hsucc rfl haddr hstack⟩
    · exact ⟨hsp, hstack⟩
  case ret =>
    rcases execRet_inv h with ⟨hne, _, rfl⟩ | ⟨_, rfl⟩
    · have hle : (s.sp - 1#5).toNat ≤ s.sp.toNat := by rw [sp_pred_toNat hne]; omega
      exact ⟨hle.trans hsp, stackLegal_of_le (s := s) hle rfl hstack⟩
    · exact ⟨hsp, hstack⟩
  all_goals
    have hsame := hframe.sp nofun nofun
    exact ⟨hsame ▸ hsp, stackLegal_of_le (by rw [hsame]) (hframe.stack nofun nofun) hstack⟩

/-- Every instruction of a RUNNING core leaves the record that of the stop, if it stops. -/
theorem exec_record_legal {i : Instr} (hrun : s.status = .running) (h : exec i s = .next t) : t.recordLegal = true := by
  rcases exec_faults_or_keeps h with ⟨c, hc, rfl⟩ | ⟨hstatus | rfl, -⟩
  · exact recordLegal_raiseFault hc _ _
  · exact recordLegal_of_not_faulted (by rw [hstatus, hrun]; nofun)
  · cases h; exact recordLegal_of_not_faulted nofun

/-- A wait that goes on is that of the Fx0A at `PC`, and one that ends leaves none (R154, R218). -/
theorem keyWaitMoment_waitLegal {x : RegIdx} (hrun : s.status = .running)
    (hfetch : s.fetchOpcode = some (encode (.ldVxK x))) : (keyWaitMoment x s).waitLegal = true := by
  rcases keyWaitMoment_cases x s with ⟨_, _, -, e⟩ | ⟨_, -, e⟩ <;> rw [e]
  · exact waitLegal_of_none rfl
  · exact (waitLegal_iff_of_some rfl).mpr ⟨hrun, hfetch⟩

/-- An instruction that a RUNNING core has fetched keeps the state legal; only Fx0A may run in a wait. -/
theorem exec_legal {i : Instr} (hl : s.Legal) (hrun : s.status = .running)
    (hwait : (∀ x, i ≠ .ldVxK x) → s.waiting = none) (hfetch : s.fetchOpcode = some (encode i))
    (h : exec i s = .next t) : t.Legal := by
  have hpc := pc_of_fetchOpcode hfetch
  obtain ⟨hsp, hstack⟩ := exec_stack_legal hpc hl.sp hl.stack h
  refine ⟨exec_mem_wf hl.mem h, hsp, exec_pc_le hpc h, hstack, exec_record_legal hrun h, ?_⟩
  have hframe := exec_frame h
  cases i
  case ldVxK x => cases h; exact keyWaitMoment_waitLegal hrun hfetch
  all_goals exact waitLegal_of_none ((hframe.waiting nofun).trans (hwait nofun))

/-- A fault keeps the state legal. -/
theorem raiseFault_legal {c : FaultCause} (hl : s.Legal) (hwait : s.waiting = none) (hc : c ≠ .none) (op : Word) :
    (raiseFault c op s).Legal :=
  ⟨hl.mem, hl.sp, hl.pc, hl.stack, recordLegal_raiseFault hc op s, waitLegal_of_none hwait⟩

/-! ### The transactions -/

/-- A load that answers a next state was accepted, and did only this (R231). -/
theorem perform_load_inv {base : Nat} {program : List Byte} {font : Option (Vector Byte 240)}
    (h : perform (.load base program font) s = .next t) :
    loadAccepted base program.length = true ∧ t = loadProgram base program font s := by
  simp only [perform] at h
  split at h
  case isTrue hacc => cases h; exact ⟨hacc, rfl⟩
  case isFalse => cases h

/-- A pixel read that answers a next state cleared DIRTY (R88). -/
theorem perform_readPx_inv {x y : Nat} (h : perform (.readPx x y) s = .next t) : t = markDisplayRead s := by
  simp only [perform] at h
  split at h <;> cases h
  rfl

/-- A CPU tick keeps the state legal. -/
theorem cpuTick_legal (hl : s.Legal) (hwait : s.waiting = none) (h : cpuTick s = .next t) : t.Legal := by
  rcases cpuTick_cases s with ⟨-, e⟩ | ⟨-, -, e⟩ | ⟨op, -, -, -, e⟩ | ⟨op, i, hrun, hfetch, hdec, e⟩ <;> rw [e] at h
  · cases h; exact hl
  · cases h; exact raiseFault_legal (c := .addressFault) hl hwait nofun 0
  · cases h; exact raiseFault_legal (c := .decodeFault) hl hwait nofun op
  · exact exec_legal hl hrun (fun _ => hwait) (by rw [encode_of_decode hdec, hfetch]) h

/-- An accepted load leaves a RUNNING core at its offset, with canonical memory (R231). -/
theorem loadProgram_legal {base : Nat} {program : List Byte} (font : Option (Vector Byte 240)) (hl : s.Legal)
    (hwait : s.waiting = none) (hacc : loadAccepted base program.length = true) :
    (loadProgram base program font s).Legal := by
  obtain ⟨-, hfits⟩ := loadAccepted_iff.mp hacc
  have hfont : Memory.wf (Memory.writeList s.mem 0 (fontOf font)) = true :=
    Memory.writeList_wf _ hl.mem (by rw [fontOf_length]; decide)
  refine ⟨Memory.writeList_wf _ hfont hfits, hl.sp, ?_, hl.stack, recordLegal_of_not_faulted nofun,
    waitLegal_of_none hwait⟩
  rw [loadProgram, BitVec.toNat_ofNat]
  omega

/-- The reset state is legal, whatever the host lists. -/
theorem reset_legal (h : HostSide) : ({ State.reset with host := h } : State).Legal :=
  ⟨rfl, Nat.zero_le 16, Nat.zero_le 0x10FE, stackLegal_iff.mpr fun _ hk => absurd hk (Nat.not_lt_zero _), rfl, rfl⟩

/-- One whole transaction keeps the state legal. -/
theorem perform_legal {r : Transaction} (hl : s.Legal) (hwait : s.waiting = none) (h : perform r s = .next t) :
    t.Legal := by
  cases r with
  | cpuTick => exact cpuTick_legal hl hwait h
  | timerTick => cases h; exact ⟨hl.mem, hl.sp, hl.pc, hl.stack, hl.record, hl.wait⟩
  | load base program font =>
    obtain ⟨hacc, rfl⟩ := perform_load_inv h
    exact loadProgram_legal font hl hwait hacc
  | reset => cases h; exact reset_legal s.host
  | read => cases h; exact ⟨hl.mem, hl.sp, hl.pc, hl.stack, hl.record, hl.wait⟩
  | readPx x y =>
    cases perform_readPx_inv h
    exact ⟨hl.mem, hl.sp, hl.pc, hl.stack, hl.record, hl.wait⟩

/-- Legality says nothing of the host's lists. -/
theorem setHost_legal (hl : s.Legal) (h : HostSide) : (s.setHost h).Legal :=
  ⟨hl.mem, hl.sp, hl.pc, hl.stack, hl.record, hl.wait⟩

/-- A moment of the wait keeps the state legal: it is a moment of the Fx0A at `PC`. -/
theorem keyWaitMoment_legal {x : RegIdx} (hl : s.Legal) (hx : s.waiting = some x) : (keyWaitMoment x s).Legal := by
  obtain ⟨hrun, hfetch⟩ := (waitLegal_iff_of_some hx).mp hl.wait
  exact exec_legal (i := .ldVxK x) hl hrun (fun hne => absurd rfl (hne x)) hfetch rfl

end

/-- Settles O10: a step is a moment of a wait or a whole transaction, and each keeps the invariant. -/
theorem everyStepKeepsLegal : Obligations.EveryStepKeepsLegal := by
  intro s t hl h
  cases hw : s.waiting with
  | some x =>
    rw [step_waiting hw] at h
    cases h
    exact keyWaitMoment_legal hl hw
  | none =>
    rw [step_free hw] at h
    exact perform_legal (s := s.taken) (setHost_legal hl _) hw h

/-- Settles O11: reset memory lists nothing, and no frame, no record and no wait is live. -/
theorem resetIsLegal : Obligations.ResetIsLegal := reset_legal HostSide.reset

end Sys2Proof.Machine
end

section
/-! PROOFS. The instruction cycle: what a step is, which fault it raises and when, and the stopped core (spec
30_encoding.md R61, R66, R69, 60_exceptions.md R200 to R212). -/

namespace Sys2Proof.Machine

variable {s t : State}

/-! ### A step that is a CPU tick (R69) -/

/-- A fault from `s` writes the record and nothing else (R206, R207). -/
theorem raiseFault_faultedFrom (c : FaultCause) (op : Word) (s : State) : FaultedFrom c op s (raiseFault c op s) := rfl

/-- Where a CPU tick is next a step is that tick, on the state with the tick taken off the schedule. -/
theorem step_ticksNext (h : s.ticksNext) : step s = cpuTick s.taken := step_tick h.1 h.2

/-- Settles O6: the step is a CPU tick, whose fetch reads the two bytes at PC. -/
theorem stepRunsTheDecodedInstruction : Obligations.StepRunsTheDecodedInstruction := by
  intro s i htick hrun hpc
  have hfetch : s.taken.fetchOpcode = some _ := fetchOpcode_inRange (s := s) hpc
  have hstep : ∀ {op}, s.taken.fetchOpcode = some op → decode op = some i → step s = exec i s.taken :=
    fun hf hd => (step_ticksNext htick).trans (cpuTick_decoded hrun hf hd)
  refine ⟨hstep hfetch, fun hbytes => hstep hfetch ?_, fun hempty => ?_⟩
  · obtain ⟨hhi, hlo⟩ : Memory.read s.mem s.pc.toNat = hiByte (encode i) ∧
        Memory.read s.mem (s.pc.toNat + 1) = loByte (encode i) := by
      simpa [Memory.readList, encodeBytes, List.range_succ] using hbytes
    rw [hhi, hlo, opcodeOfBytes_bytes, decode_encode]
  · rw [State.taken, take_empty hempty]; rfl

/-- Settles O7, by the two cases of the schedule. -/
theorem stepPerformsTheHostsNextTransaction : Obligations.StepPerformsTheHostsNextTransaction := by
  intro s hw
  refine ⟨fun r rest hcons => ?_, fun hempty => ?_⟩
  · rw [step_free hw, take_cons hcons]; rfl
  · rw [step_free hw, take_empty hempty]; rfl

/-- A fetch faults exactly when `PC` is above 0xFFE (R61). -/
theorem fetchOpcode_eq_none_iff : s.fetchOpcode = none ↔ 0xFFE < s.pc.toNat := by
  refine ⟨fun h => ?_, fetchOpcode_above⟩
  by_contra hle
  rw [fetchOpcode_inRange (by omega)] at h
  cases h

/-- The info of an AddressFault of the fetch is `pc0` (R201). -/
theorem faultInfo_fetch (op : Word) (h : 0xFFE < s.pc.toNat) :
    (raiseFault .addressFault op s).faultInfo = some s.pc.toNat := by
  have hout : inRange s.pc.toNat 2 = false := inRange_false_iff.mpr (by omega)
  simp [State.faultInfo, hout]

/-- The info of an AddressFault of the execute stage is `I` (R201). -/
theorem faultInfo_execute (op : Word) (h : s.pc.toNat ≤ 0xFFE) :
    (raiseFault .addressFault op s).faultInfo = some s.i.toNat := by
  have hin : inRange s.pc.toNat 2 = true := inRange_iff.mpr (by omega)
  simp [State.faultInfo, hin]

/-- Settles O8: the value of two bytes as a number, and the fault of the fetch above 0xFFE. -/
theorem fetchReadsBigEndianOrFaults : Obligations.FetchReadsBigEndianOrFaults := by
  refine ⟨fun s hpc => ⟨_, fetchOpcode_inRange hpc, opcodeOfBytes_toNat _ _⟩, fun s htick hrun hpc => ?_⟩
  have hfetch : s.taken.fetchOpcode = none := fetchOpcode_above (s := s) hpc
  exact ⟨_, (step_ticksNext htick).trans (cpuTick_noFetch hrun hfetch), raiseFault_faultedFrom ..,
    faultInfo_fetch 0 hpc⟩

/-- Settles O4: the reserved words are those that do not decode, and a tick that fetches one raises DecodeFault. -/
theorem reservedWordsRaiseDecodeFault : Obligations.ReservedWordsRaiseDecodeFault := by
  refine ⟨decode_eq_none_iff, fun s op htick hrun hfetch hres => ?_⟩
  have hdec := (decode_eq_none_iff op).mpr hres
  exact ⟨_, (step_ticksNext htick).trans (cpuTick_reserved (s := s.taken) hrun hfetch hdec),
    raiseFault_faultedFrom .., rfl⟩

/-! ### The stopped core (R211) -/

/-- A transaction that makes a stopped core RUNNING is a load or a reset. -/
theorem restarts_of_perform {r : Transaction} (hstop : s.status ≠ .running) (h : perform r s = .next t)
    (hrun : t.status = .running) : r = .reset ∨ ∃ base program font, r = .load base program font := by
  cases r with
  | cpuTick =>
    rw [perform, cpuTick_stopped hstop] at h
    cases h
    exact absurd hrun hstop
  | timerTick => cases h; exact absurd hrun hstop
  | load base program font => exact .inr ⟨base, program, font, rfl⟩
  | reset => exact .inl rfl
  | read => cases h; exact absurd hrun hstop
  | readPx x y => cases perform_readPx_inv h; exact absurd hrun hstop

/-- A pixel read in range is answered, one out of range refused (R88). -/
theorem perform_readPx (s : State) {x y : Nat} (hx : x < 128) (hy : y < 64) :
    perform (.readPx x y) s = .next (markDisplayRead s) := by simp [perform, pixelInRange, hx, hy]

theorem perform_readPx_refused (s : State) {x y : Nat} (h : 128 ≤ x ∨ 64 ≤ y) :
    perform (.readPx x y) s = .refused .pixelOutOfRange := by
  have hout : pixelInRange x y = false := by simp [pixelInRange]; omega
  simp [perform, hout]

/-- Settles O9, transaction by transaction. -/
theorem stoppedCoreIgnoresCpuTicks : Obligations.StoppedCoreIgnoresCpuTicks := by
  intro s hstop hw
  have hstep := step_free hw
  refine ⟨fun hr => ?_, fun hr => ?_, fun hr => ?_, fun x y hr hx hy => ?_, fun t h hrun => ?_⟩
  · exact ⟨(step_ticksNext ⟨hw, hr⟩).trans (cpuTick_stopped hstop), rfl⟩
  · rw [hr] at hstep
    exact ⟨_, hstep, rfl, countDown_toNat s.dt, countDown_toNat s.st⟩
  · rw [hstep, hr]; rfl
  · rw [hstep, hr, perform_readPx _ hx hy]; rfl
  · rw [hstep] at h
    exact restarts_of_perform (s := s.taken) hstop h hrun

/-! ### Every legal state steps (R200, R232) -/

/-- With a legal `SP` a CPU tick answers a next state. -/
theorem cpuTick_answers (hsp : s.sp.toNat ≤ 16) : ∃ t, cpuTick s = .next t := by
  rcases cpuTick_cases s with ⟨-, e⟩ | ⟨-, -, e⟩ | ⟨_, -, -, -, e⟩ | ⟨_, i, -, -, -, e⟩
  · exact ⟨_, e⟩
  · exact ⟨_, e⟩
  · exact ⟨_, e⟩
  · obtain ⟨t, ht⟩ := exec_answers i hsp
    exact ⟨t, e.trans ht⟩

/-- A transaction that the spec gives a move has one. -/
theorem perform_answers {r : Transaction} (hsp : s.sp.toNat ≤ 16) (hwf : r.wf = true) : ∃ t, perform r s = .next t := by
  cases r with
  | cpuTick => exact cpuTick_answers hsp
  | timerTick => exact ⟨_, rfl⟩
  | load base program font => exact ⟨_, if_pos hwf⟩
  | reset => exact ⟨_, rfl⟩
  | read => exact ⟨_, rfl⟩
  | readPx x y => exact ⟨_, if_pos hwf⟩

/-- A transaction without a move is refused, and it is a load or a pixel read. -/
theorem perform_refused {r : Transaction} (s : State) (hwf : r.wf = false) :
    perform r s = .refused .loadRefused ∨ perform r s = .refused .pixelOutOfRange := by
  cases r with
  | load base program font => exact .inl (if_neg (Bool.eq_false_iff.mp hwf))
  | readPx x y => exact .inr (if_neg (Bool.eq_false_iff.mp hwf))
  | cpuTick | timerTick | reset | read => cases hwf

/-- Settles O12, by the next transaction having a move or none. -/
theorem legalStatesAlwaysStep : Obligations.LegalStatesAlwaysStep := by
  intro s hl
  constructor
  · intro h
    cases hw : s.waiting with
    | some x => exact ⟨_, step_waiting hw⟩
    | none =>
      have hwf : s.host.take.1.wf = true := h.resolve_left (by rw [hw]; nofun)
      rw [step_free hw]
      exact perform_answers (s := s.taken) hl.sp hwf
  · intro hw hwf
    rw [step_free hw]
    exact perform_refused _ hwf

/-! ### Faults (R200 to R207) -/

/-- A tick that ends FAULTED raised one fault, with the fetched opcode or 0. -/
theorem cpuTick_faulted (hrun : s.status = .running) (h : cpuTick s = .next t) (hf : t.status = .faulted) :
    ∃ c op, c ≠ .none ∧ op = s.fetchOpcode.getD 0#16 ∧ FaultedFrom c op s t := by
  rcases cpuTick_cases s with ⟨hstop, -⟩ | ⟨-, hfetch, e⟩ | ⟨op, -, hfetch, -, e⟩ | ⟨op, i, -, hfetch, hdec, e⟩
  · exact absurd hrun hstop
  · rw [e] at h; cases h
    exact ⟨.addressFault, 0, by decide, by rw [hfetch]; rfl, rfl⟩
  · rw [e] at h; cases h
    exact ⟨.decodeFault, op, by decide, by rw [hfetch]; rfl, rfl⟩
  · rw [e] at h
    rcases exec_faults_or_keeps h with ⟨c, hc, rfl⟩ | ⟨hstatus | rfl, -⟩
    · exact ⟨c, encode i, hc, by rw [hfetch, encode_of_decode hdec]; rfl, rfl⟩
    · rw [hstatus, hrun] at hf; cases hf
    · cases h; cases hf

/-- Settles O13: the step is a CPU tick, and a tick that faults writes the record only. -/
theorem faultsArePrecise : Obligations.FaultsArePrecise := by
  intro s t htick hrun hstep hf
  rw [step_ticksNext htick] at hstep
  exact cpuTick_faulted (s := s.taken) hrun hstep hf

/-- Settles O15: the status changes by a fault or by EXIT only. -/
theorem onlyExitExits : Obligations.OnlyExitExits := by
  intro i s t hrun h
  constructor
  · intro hexit
    rcases exec_faults_or_keeps h with ⟨c, -, rfl⟩ | ⟨hstatus | hi, -⟩
    · cases hexit
    · rw [hstatus, hrun] at hexit; cases hexit
    · exact hi
  · rintro rfl
    cases h; rfl

/-! ### When the execute stage faults (R203 to R205) -/

/-- The sprite length of R140, as the rule states it. -/
theorem spriteLen_eq (m : Mode) (n : BitVec 4) :
    spriteLen m n = if n = 0#4 ∧ m = .high then 32 else n.toNat := by
  simp [spriteLen, isBig]

/-- A call with 16 frames live overflows (R203). -/
theorem exec_call_full (nnn : Addr) (h : s.sp = 16#5) :
    exec (.call nnn) s = .next (raiseFault .stackOverflow (encode (.call nnn)) s) := by
  rw [exec, execCall, push_full _ h]; rfl

/-- A return with an empty stack underflows (R204). -/
theorem exec_ret_empty (h : s.sp = 0#5) : exec .ret s = .next (raiseFault .stackUnderflow (encode .ret) s) := by
  rw [exec, execRet, pop_empty h]; rfl

/-- A BCD store that reaches above 0xFFF faults (R205). -/
theorem exec_ldB_fault {x : RegIdx} (h : 0xFFF < s.i.toNat + 2) :
    exec (.ldB x) s = .next (raiseFault .addressFault (encode (.ldB x)) s) :=
  storeAtIndex_fault _ (by rw [bcdDigits_length]; omega)

/-- A block store that reaches above 0xFFF faults (R205). -/
theorem exec_stBlock_fault {x : RegIdx} (h : 0xFFF < s.i.toNat + x.toNat) :
    exec (.stBlock x) s = .next (raiseFault .addressFault (encode (.stBlock x)) s) :=
  storeAtIndex_fault _ (by rw [regBlock_length]; omega)

/-- Under the conditions of R203 to R205 an instruction raises the fault they name. -/
theorem exec_of_executeFault {i : Instr} {c : FaultCause} (h : executeFault i s = some c) :
    exec i s = .next (raiseFault c (encode i) s) := by
  cases i
  case call nnn =>
    obtain ⟨hfull, ⟨⟩⟩ := Option.ite_none_right_eq_some.mp h
    exact exec_call_full nnn hfull
  case ret =>
    obtain ⟨hempty, ⟨⟩⟩ := Option.ite_none_right_eq_some.mp h
    exact exec_ret_empty hempty
  case drw x y n =>
    simp only [executeFault, ← spriteLen_eq] at h
    obtain ⟨hout, ⟨⟩⟩ := Option.ite_none_right_eq_some.mp h
    exact execDrw_fault (by omega)
  case ldB x =>
    obtain ⟨hout, ⟨⟩⟩ := Option.ite_none_right_eq_some.mp h
    exact exec_ldB_fault hout
  case stBlock x =>
    obtain ⟨hout, ⟨⟩⟩ := Option.ite_none_right_eq_some.mp h
    exact exec_stBlock_fault hout
  case ldBlock x =>
    obtain ⟨hout, ⟨⟩⟩ := Option.ite_none_right_eq_some.mp h
    exact execLdBlock_fault hout
  all_goals cases h

/-- Outside those conditions an instruction raises no fault. -/
theorem exec_not_faulted {i : Instr} (hrun : s.status = .running) (hno : executeFault i s = none)
    (h : exec i s = .next t) : t.status ≠ .faulted := by
  have hkeep : s.status ≠ .faulted := by rw [hrun]; nofun
  cases i
  case call =>
    rcases execCall_inv h with ⟨_, rfl⟩ | ⟨hfull, -⟩
    · exact hkeep
    · rw [executeFault, if_pos hfull] at hno; cases hno
  case ret =>
    rcases execRet_inv h with ⟨_, _, rfl⟩ | ⟨hempty, -⟩
    · exact hkeep
    · rw [executeFault, if_pos hempty] at hno; cases hno
  case drw x y n =>
    rcases execDrw_inv h with ⟨_, rfl⟩ | ⟨hout, -⟩
    · exact hkeep
    · simp only [executeFault, ← spriteLen_eq] at hno
      rw [if_pos (by omega)] at hno; cases hno
  case ldB =>
    rcases execLdB_inv h with ⟨_, rfl⟩ | ⟨hout, -⟩
    · exact hkeep
    · rw [executeFault, if_pos (by omega)] at hno; cases hno
  case stBlock =>
    rcases execStBlock_inv h with ⟨_, rfl⟩ | ⟨hout, -⟩
    · exact hkeep
    · rw [executeFault, if_pos (by omega)] at hno; cases hno
  case ldBlock =>
    rcases execLdBlock_inv h with ⟨_, rfl⟩ | ⟨hout, -⟩
    · exact hkeep
    · rw [executeFault, if_pos (by omega)] at hno; cases hno
  case ldVxK x =>
    cases h
    rcases keyWaitMoment_cases x s with ⟨_, _, -, e⟩ | ⟨_, -, e⟩ <;> rw [e] <;> exact hkeep
  case exit => cases h; nofun
  all_goals (cases h; exact hkeep)

/-- Settles O14, by the six instructions that can fault. -/
theorem executeFaultsExactlyWhenStated : Obligations.ExecuteFaultsExactlyWhenStated :=
  ⟨fun i s c h => ⟨_, exec_of_executeFault h, raiseFault_faultedFrom c (encode i) s⟩,
    fun _ _ _ hrun hno h => exec_not_faulted hrun hno h, fun _ => fetchOpcode_eq_none_iff⟩

end Sys2Proof.Machine
end

section
/-! PROOFS. Family 0 and control flow: the scrolls, the mode switches, EXIT, the stack instructions and the skips (spec
41_family0_system.md R100 to R107, 42_control_flow.md R111 to R116). -/

namespace Sys2Proof.Machine

/-! ### The scrolls (R84, R85, R100, R103, R104) -/

/-- SCD rotates the rows down and zeroes the first two (R100). -/
theorem exec_scd (n : BitVec 4) (s : State) :
    exec (.scd n) s = .next (s.withDisplay (s.disp.scrollDown n.toNat)) := rfl

/-- SCR rotates every row right (R103). -/
theorem exec_scr (s : State) : exec .scr s = .next (s.withDisplay (s.disp.scrollSide (Config.sideScroll : Int))) := rfl

/-- SCL rotates every row left (R104). -/
theorem exec_scl (s : State) :
    exec .scl s = .next (s.withDisplay (s.disp.scrollSide (-(Config.sideScroll : Int)))) := rfl

/-- Settles O21: row `r + n` of the result was row `r`, unless it is one of the first two. -/
theorem scdRotatesThenZeroesTwoRows : Obligations.ScdRotatesThenZeroesTwoRows := by
  intro n s
  refine ⟨_, exec_scd n s, withDisplay_onlyDisplayPc s _, withDisplay_pc s _, rfl, rfl, fun r hr => ?_⟩
  have hsource : ((r + n.toNat) % 64 + (64 - n.toNat % 64)) % 64 = r % 64 := by omega
  rw [withDisplay_disp, Display.row, scrollDown_row _ _ _ (Nat.mod_lt _ (by decide))]
  simp only [hsource, Display.row]

section
variable (d : Display) (c : Fin 128) (r : Fin 64)

/-- A scroll to the right moves the pixel at column `c` to column `c + 4`, round the row. -/
theorem dot_scrollSide_right : (d.scrollSide (Config.sideScroll : Int)).dot (c + 4) r = d.dot c r := by
  rw [scrollSide_right d _ (by decide)]
  simp only [Display.dot, rowsOf_getElem]
  exact pixel_ror128 _ 4 c.val c.isLt

/-- A scroll to the left moves the pixel at column `c + 4` to column `c`, round the row. -/
theorem dot_scrollSide_left : (d.scrollSide (-(Config.sideScroll : Int))).dot c r = d.dot (c + 4) r := by
  rw [scrollSide_left d _ (by decide)]
  simp only [Display.dot, rowsOf_getElem]
  exact pixel_rol128 _ 4 c.val c.isLt

/-- A side scroll to the right sets DIRTY. -/
theorem scrollSide_right_dirty : (d.scrollSide (Config.sideScroll : Int)).dirty = true := by
  rw [scrollSide_right d _ (by decide)]

/-- A side scroll to the left sets DIRTY. -/
theorem scrollSide_left_dirty : (d.scrollSide (-(Config.sideScroll : Int))).dirty = true := by
  rw [scrollSide_left d _ (by decide)]

end

/-- Settles O24, pixel by pixel. -/
theorem sideScrollsRotateFourColumns : Obligations.SideScrollsRotateFourColumns := by
  refine fun s => ⟨⟨_, exec_scr s, withDisplay_onlyDisplayPc s _, withDisplay_pc s _, ?_, scrollSide_mode _ _, ?_⟩,
    ⟨_, exec_scl s, withDisplay_onlyDisplayPc s _, withDisplay_pc s _, ?_, scrollSide_mode _ _, ?_⟩⟩
  · exact scrollSide_right_dirty _
  · exact dot_scrollSide_right _
  · exact scrollSide_left_dirty _
  · exact dot_scrollSide_left _

/-- Settles O25: a pixel moved 4 columns one way and 4 back is where it was. -/
theorem sideScrollsUndoEachOther : Obligations.SideScrollsUndoEachOther := by
  refine fun s t u => ⟨fun hright hleft => ?_, fun hleft hright => ?_⟩
  · cases hright; cases hleft
    exact fb_eq_of_dot_eq fun c r => (dot_scrollSide_left _ c r).trans (dot_scrollSide_right _ c r)
  · cases hleft; cases hright
    refine fb_eq_of_dot_eq fun c r => ?_
    obtain ⟨b, rfl⟩ : ∃ b : Fin 128, b + 4 = c := ⟨c - 4, sub_add_cancel c 4⟩
    exact (dot_scrollSide_right _ b r).trans (dot_scrollSide_left _ b r)

/-! ### EXIT and the mode switches (R105 to R107) -/

/-- EXIT only signals the exit (R105). -/
theorem exec_exit (s : State) : exec .exit s = .next (signalExit s) := rfl

/-- A core that has exited and is in no wait reports EXIT (R200). -/
theorem tickReport_exited {s : State} (hw : s.waiting = none) (hs : s.status = .exited) :
    s.tickReport = some .exit := by simp [State.tickReport, hw, hs]

/-- Settles O26: EXIT writes STATUS, from which the report is read. -/
theorem exitSetsStatusOnly : Obligations.ExitSetsStatusOnly :=
  fun s => ⟨_, exec_exit s, rfl, fun hw => tickReport_exited (s := signalExit s) hw rfl⟩

/-- LOW sets the mode (R106). -/
theorem exec_low (s : State) : exec .low s = .next (s.withDisplay (s.disp.setMode .low)) := rfl

/-- HIGH sets the mode (R107). -/
theorem exec_high (s : State) : exec .high s = .next (s.withDisplay (s.disp.setMode .high)) := rfl

/-- Settles O27, by what `setMode` keeps. -/
theorem modeSwitchesKeepBufferAndDirty : Obligations.ModeSwitchesKeepBufferAndDirty :=
  fun s =>
    ⟨⟨_, exec_low s, withDisplay_onlyDisplayPc s _, withDisplay_pc s _, setMode_mode .., setMode_fb ..,
      setMode_dirty ..⟩,
    ⟨_, exec_high s, withDisplay_onlyDisplayPc s _, withDisplay_pc s _, setMode_mode .., setMode_fb ..,
      setMode_dirty ..⟩⟩

/-! ### The call and the return (R16, R17, R102, R111) -/

/-- A call with a free slot pushes its own address and jumps (R111). -/
theorem exec_call_free (nnn : Addr) {s : State} (h : s.sp.toNat < 16) :
    exec (.call nnn) s = .next { s with
      sp := s.sp + 1#5, stack := s.stack.set s.sp.toNat (s.pc.extractLsb' 0 12) h, pc := targetOf nnn } := by
  rw [exec, execCall, push_ok _ h]; rfl

/-- A return with a live frame pops it and goes on after the call (R102). -/
theorem exec_ret_live {s : State} (h0 : s.sp ≠ 0#5) (h : s.sp.toNat - 1 < 16) :
    exec .ret s = .next { s with sp := s.sp - 1#5, pc := returnTarget (s.stack[s.sp.toNat - 1]'h) } := by
  rw [exec, execRet, pop_ok h0 h]; rfl

/-- Slot `k` stands at position `k - 1` (R15). -/
theorem slot_eq (s : State) {k : Nat} (h : k - 1 < 16) : s.slot k = s.stack[k - 1]'h := by
  simp only [State.slot, Nat.mod_eq_of_lt h]

/-- Settles O23: a live frame is popped exactly, an empty stack faults. -/
theorem retPopsAndAddsTwo : Obligations.RetPopsAndAddsTwo := by
  refine ⟨fun s hlive hle => ?_, fun s hempty => ⟨_, exec_ret_empty hempty, raiseFault_faultedFrom ..⟩⟩
  have h0 : s.sp ≠ 0#5 := fun e => by rw [e] at hlive; exact absurd hlive (by decide)
  have hpos : s.sp.toNat - 1 < 16 := by omega
  exact ⟨_, exec_ret_live h0 hpos, rfl, sp_pred_toNat h0, by rw [slot_eq s hpos]; exact returnTarget_toNat _⟩

/-- Settles O30: the pushed slot is the next one and no other changes; a full stack faults. -/
theorem callPushesItsOwnAddress : Obligations.CallPushesItsOwnAddress := by
  refine ⟨fun nnn s hfree => ?_, fun nnn s hfull => ⟨_, exec_call_full nnn hfull, raiseFault_faultedFrom ..⟩⟩
  refine ⟨_, exec_call_free nnn hfree, rfl, sp_succ_toNat hfree, ?_, fun k hk1 hk16 hne => ?_, targetOf_toNat nnn⟩
  · rw [slot_eq _ (by omega)]
    simp only [Nat.add_sub_cancel, Vector.getElem_set_self, low12_toNat]
  · have hpos : k - 1 < 16 := by omega
    have hother : s.sp.toNat ≠ k - 1 := by omega
    rw [slot_eq _ hpos, slot_eq _ hpos]
    simp only [Vector.getElem_set_ne _ _ hother]

/-- Settles O31: the return finds the slot the call pushed, and an address a fetch can use fits a slot. -/
theorem returnGoesAfterTheCall : Obligations.ReturnGoesAfterTheCall := by
  intro nnn s hfree hpc
  refine ⟨_, exec_call_free nnn hfree, fun t' hsp hstack => ?_⟩
  have hnat : t'.sp.toNat = s.sp.toNat + 1 := by rw [hsp]; exact sp_succ_toNat hfree
  have h0 : t'.sp ≠ 0#5 := fun e => by rw [e] at hnat; exact absurd hnat (Nat.succ_ne_zero _).symm
  refine ⟨_, exec_ret_live h0 (by omega), ?_, ?_⟩
  · simp only [returnTarget_toNat, hstack, hnat, Nat.add_sub_cancel, Vector.getElem_set_self, low12_toNat]
    omega
  · simp only [hsp, BitVec.add_sub_cancel]

/-! ### JP V0 and the skips (R112 to R116) -/

/-- JP V0 loads PC with the sum (R116). -/
theorem exec_jpV0 (nnn : Addr) (s : State) : exec (.jpV0 nnn) s = .next (s.setPc (s.offsetTarget nnn)) := rfl

/-- Settles O29: 16 bits hold the sum of a 12-bit and an 8-bit number. -/
theorem offsetJumpIsExact : Obligations.OffsetJumpIsExact :=
  fun nnn s => ⟨_, exec_jpV0 nnn s, setPc_onlyPc s _, offsetTarget_toNat s nnn⟩

/-- SE Vx, kk skips on equality (R112). -/
theorem exec_seImm (x : RegIdx) (kk : Byte) (s : State) : exec (.seImm x kk) s = .next (s.skipIf (s.getV x == kk)) :=
  rfl

/-- SNE Vx, kk skips on difference (R113). -/
theorem exec_sneImm (x : RegIdx) (kk : Byte) (s : State) : exec (.sneImm x kk) s = .next (s.skipIf (s.getV x != kk)) :=
  rfl

/-- SE Vx, Vy skips on equality (R114). -/
theorem exec_seReg (x y : RegIdx) (s : State) : exec (.seReg x y) s = .next (s.skipIf (s.getV x == s.getV y)) := rfl

/-- SNE Vx, Vy skips on difference (R115). -/
theorem exec_sneReg (x y : RegIdx) (s : State) : exec (.sneReg x y) s = .next (s.skipIf (s.getV x != s.getV y)) := rfl

/-- A skip on equality writes PC only, by the comparison. -/
theorem skipIf_eq (s : State) (a b : Byte) :
    ∃ t, Host.Outcome.next (s.skipIf (a == b)) = (.next t : Result) ∧ OnlyPc s t ∧
      (a = b → t.pc = s.pc + 4#16) ∧ (a ≠ b → t.pc = s.pc + 2#16) :=
  ⟨_, rfl, rfl, fun h => by simp [h], fun h => by simp [h]⟩

/-- A skip on difference writes PC only, by the comparison. -/
theorem skipIf_ne (s : State) (a b : Byte) :
    ∃ t, Host.Outcome.next (s.skipIf (a != b)) = (.next t : Result) ∧ OnlyPc s t ∧
      (a ≠ b → t.pc = s.pc + 4#16) ∧ (a = b → t.pc = s.pc + 2#16) :=
  ⟨_, rfl, rfl, fun h => by simp [h], fun h => by simp [h]⟩

/-- Settles O32: each is one skip, on equality or on difference of two bytes. -/
theorem skipsCompareAndWritePcOnly : Obligations.SkipsCompareAndWritePcOnly := by
  refine ⟨fun x kk s => ?_, fun x y s => ?_⟩
  · rw [exec_seImm, exec_sneImm]
    exact ⟨skipIf_eq s _ _, skipIf_ne s _ _⟩
  · rw [exec_seReg, exec_sneReg]
    exact ⟨skipIf_eq s _ _, skipIf_ne s _ _⟩

end Sys2Proof.Machine
end

section
/-! PROOFS. The logic operations and the flagged arithmetic of family 8 (spec 43_alu.md R123 to R130). -/

namespace Sys2Proof.Machine

/-! ### The logic operations (R123 to R125) -/

/-- OR writes the bitwise disjunction (R123). -/
theorem exec_orReg (x y : RegIdx) (s : State) : exec (.orReg x y) s = writeReg x (s.getV x ||| s.getV y) s := rfl

/-- AND writes the bitwise conjunction (R124). -/
theorem exec_andReg (x y : RegIdx) (s : State) : exec (.andReg x y) s = writeReg x (s.getV x &&& s.getV y) s := rfl

/-- XOR writes the bitwise difference (R125). -/
theorem exec_xorReg (x y : RegIdx) (s : State) : exec (.xorReg x y) s = writeReg x (s.getV x ^^^ s.getV y) s := rfl

/-- A flagless register write of a byte given bit by bit. -/
theorem writeReg_writes_bits (x : RegIdx) {b : Byte} {bit : Nat → Bool} (s : State) (hb : ∀ k, b.getLsbD k = bit k) :
    ∃ t, writeReg x b s = .next t ∧ OnlyRegsPc s t ∧ t.pc = s.pc + 2#16 ∧ RegsExcept x s t ∧
      ∀ k, (t.getV x).getLsbD k = bit k := by
  obtain ⟨t, hnext, hframe, hpc, hother, hx⟩ := writeReg_writes_only x b s
  exact ⟨t, hnext, hframe, hpc, hother, fun k => by rw [hx, hb]⟩

/-- Settles O34: each is one flagless register write of a bitwise operation. -/
theorem logicWritesOnlyVx : Obligations.LogicWritesOnlyVx := by
  intro x y s
  have hor (k : Nat) : (s.getV x ||| s.getV y).getLsbD k = ((s.getV x).getLsbD k || (s.getV y).getLsbD k) :=
    BitVec.getLsbD_or
  have hand (k : Nat) : (s.getV x &&& s.getV y).getLsbD k = ((s.getV x).getLsbD k && (s.getV y).getLsbD k) :=
    BitVec.getLsbD_and
  have hxor (k : Nat) : (s.getV x ^^^ s.getV y).getLsbD k = ((s.getV x).getLsbD k != (s.getV y).getLsbD k) :=
    BitVec.getLsbD_xor
  rw [exec_orReg, exec_andReg, exec_xorReg]
  exact ⟨writeReg_writes_bits x s hor, writeReg_writes_bits x s hand, writeReg_writes_bits x s hxor⟩

/-! ### The flagged operations (R12, R126 to R130) -/

/-- ADD writes the sum, then the carry (R126). -/
theorem exec_addReg (x y : RegIdx) (s : State) : exec (.addReg x y) s =
    writeFlagged x (s.getV x + s.getV y) (carryOut (s.getV x) (s.getV y)) s := rfl

/-- SUB writes the difference, then NOT borrow (R127). -/
theorem exec_subReg (x y : RegIdx) (s : State) : exec (.subReg x y) s =
    writeFlagged x (s.getV x - s.getV y) (noBorrow (s.getV x) (s.getV y)) s := rfl

/-- SUBN writes the reversed difference, then NOT borrow (R129). -/
theorem exec_subnReg (x y : RegIdx) (s : State) : exec (.subnReg x y) s =
    writeFlagged x (s.getV y - s.getV x) (noBorrow (s.getV y) (s.getV x)) s := rfl

/-- SHR writes Vy shifted right, then the bit moved out (R128). -/
theorem exec_shrReg (x y : RegIdx) (s : State) : exec (.shrReg x y) s =
    writeFlagged x (s.getV y >>> 1) (lowBit (s.getV y)) s := rfl

/-- SHL writes Vy shifted left, then the bit moved out (R130). -/
theorem exec_shlReg (x y : RegIdx) (s : State) : exec (.shlReg x y) s =
    writeFlagged x (s.getV y <<< 1) (highBit (s.getV y)) s := rfl

/-- A flagged write completes, advances PC, and of the registers writes `x` and then `VF`: `x`, unless it is `VF`, holds
the result, and `VF` the flag. `m` and `k` are the two as numbers (R12). -/
theorem writeFlagged_writes_only (x : RegIdx) {b : Byte} {f : Bool} (s : State) {m k : Nat} (hb : b.toNat = m)
    (hf : (flagByte f).toNat = k) :
    ∃ t, writeFlagged x b f s = .next t ∧ OnlyRegsPc s t ∧ t.pc = s.pc + 2#16 ∧
      (∀ r, r ≠ x → r ≠ vf → t.getV r = s.getV r) ∧ (x ≠ vf → (t.getV x).toNat = m) ∧ (t.getV vf).toNat = k := by
  have hread (r : RegIdx) : (s.setResultFlag x b f).advance.getV r =
      if r = vf then flagByte f else if r = x then b else s.getV r := getV_setResultFlag s x r b f
  refine ⟨_, rfl, rfl, rfl, fun r hx hvf => ?_, fun hvf => ?_, ?_⟩
  · rw [hread, if_neg hvf, if_neg hx]
  · rw [hread, if_neg hvf, if_pos rfl, hb]
  · rw [hread, if_pos rfl, hf]

/-- A flag decided by a condition is 1 or 0 by that condition. -/
theorem flagByte_decide_toNat (p : Prop) [Decidable p] : (flagByte (decide p)).toNat = if p then 1 else 0 := by
  by_cases h : p <;> simp [flagByte, h]

/-- The flag of a right shift is the byte modulo 2. -/
theorem flagByte_lowBit_toNat (b : Byte) : (flagByte (lowBit b)).toNat = b.toNat % 2 := by
  revert b; decide

/-- The flag of a left shift is the byte divided by 128. -/
theorem flagByte_highBit_toNat (b : Byte) : (flagByte (highBit b)).toNat = b.toNat / 128 := by
  revert b; decide

/-- A difference of bytes as a number, modulo 256. -/
theorem byte_sub_toNat (a b : Byte) : (a - b).toNat = (a.toNat + 256 - b.toNat) % 256 := by
  rw [BitVec.toNat_sub]; omega

/-- Settles O35, by the flagged write of the sum. -/
theorem addWritesSumThenCarry : Obligations.AddWritesSumThenCarry := by
  intro x y s
  rw [exec_addReg]
  exact writeFlagged_writes_only x s (BitVec.toNat_add ..) (flagByte_decide_toNat _)

/-- Settles O36, by the flagged writes of the differences. -/
theorem subtractionsWriteDifferenceThenNotBorrow : Obligations.SubtractionsWriteDifferenceThenNotBorrow := by
  intro x y s
  rw [exec_subReg, exec_subnReg]
  exact ⟨writeFlagged_writes_only x s (byte_sub_toNat ..) (flagByte_decide_toNat _),
    writeFlagged_writes_only x s (byte_sub_toNat ..) (flagByte_decide_toNat _)⟩

/-- Settles O37, by the flagged writes of the shifted Vy. -/
theorem shiftsReadVyAndKeepTheBitShiftedOut : Obligations.ShiftsReadVyAndKeepTheBitShiftedOut := by
  intro x y s
  have hshr : (s.getV y >>> 1).toNat = (s.getV y).toNat / 2 := by
    rw [BitVec.toNat_ushiftRight, Nat.shiftRight_eq_div_pow]
  have hshl : (s.getV y <<< 1).toNat = (s.getV y).toNat * 2 % 256 := by
    rw [BitVec.toNat_shiftLeft, Nat.shiftLeft_eq]
  rw [exec_shrReg, exec_shlReg]
  exact ⟨writeFlagged_writes_only x s hshr (flagByte_lowBit_toNat _),
    writeFlagged_writes_only x s hshl (flagByte_highBit_toNat _)⟩

end Sys2Proof.Machine
end

section
/-! PROOFS. Random, keys and timers (spec 45_keys_timers_random.md R150 to R156, 60_exceptions.md R214 to R219). -/

namespace Sys2Proof.Machine

/-! ### RND and the key skips (R150 to R152) -/

/-- RND draws one byte and writes it masked (R150). -/
theorem exec_rnd (x : RegIdx) (kk : Byte) (s : State) : exec (.rnd x kk) s =
    .next ((s.setV x (s.host.randByte.1 &&& kk)).advance.setHost s.host.randByte.2) := rfl

/-- SKP skips when the key is down (R151). -/
theorem exec_skp (x : RegIdx) (s : State) : exec (.skp x) s =
    .next ((s.skipIf (s.host.keyState (s.getV x)).1).setHost (s.host.keyState (s.getV x)).2) := rfl

/-- SKNP skips when the key is not down (R152). -/
theorem exec_sknp (x : RegIdx) (s : State) : exec (.sknp x) s =
    .next ((s.skipIf (!(s.host.keyState (s.getV x)).1)).setHost (s.host.keyState (s.getV x)).2) := rfl

/-- A register write leaves every other register. -/
theorem setV_regsExcept (s : State) (x : RegIdx) (b : Byte) : RegsExcept x s (s.setV x b) :=
  fun _ hr => getV_setV_other s b hr

/-- Settles O42, by the host's one draw. -/
theorem rndMasksTheRandomByte : Obligations.RndMasksTheRandomByte := by
  intro x kk s
  refine ⟨_, s.host.randByte.1, exec_rnd x kk s, rfl, rfl, setV_regsExcept s x _, getV_setV_same s x _, rfl,
    fun c rest hlist => ?_, fun hempty => ?_⟩
  · rw [setHost_host, randByte_listed hlist]
    exact ⟨rfl, rfl⟩
  · rw [setHost_host, randByte_unlisted hempty]

/-- Settles O43, by the host's one answer. -/
theorem keySkipsFollowTheHostsAnswer : Obligations.KeySkipsFollowTheHostsAnswer := by
  intro x s
  refine ⟨(s.host.keyState (s.getV x)).1, (s.host.keyState (s.getV x)).2, rfl, fun down rest hlist => ?_,
    fun hempty => ?_, ⟨_, exec_skp x s, rfl, rfl⟩, ⟨_, exec_sknp x s, rfl, ?_⟩⟩
  · rw [keyState_listed _ hlist]
    exact ⟨List.contains_eq_mem .., rfl⟩
  · rw [keyState_unlisted _ hempty]
  · rw [setHost_pc, skipIf_pc]
    cases (s.host.keyState (s.getV x)).1 <;> rfl

/-! ### The timer instructions (R153, R155, R156) -/

/-- LD Vx, DT reads DT (R153). -/
theorem exec_ldVxDt (x : RegIdx) (s : State) : exec (.ldVxDt x) s = writeReg x s.dt s := rfl

/-- LD DT, Vx writes DT (R155). -/
theorem exec_ldDtVx (x : RegIdx) (s : State) : exec (.ldDtVx x) s = .next { s.advance with dt := s.getV x } := rfl

/-- LD ST, Vx writes ST (R156). -/
theorem exec_ldStVx (x : RegIdx) (s : State) : exec (.ldStVx x) s = .next { s.advance with st := s.getV x } := rfl

/-- The sound is active while ST is above 0 (R215). -/
theorem soundActive_iff (s : State) : s.soundActive = true ↔ 0 < s.st.toNat := decide_eq_true_iff

/-- Settles O44: one register write and two timer writes. -/
theorem timerReadsAndWrites : Obligations.TimerReadsAndWrites := by
  intro x s
  rw [exec_ldVxDt]
  exact ⟨writeReg_writes_only x s.dt s, ⟨_, exec_ldDtVx x s, rfl, rfl, rfl⟩,
    ⟨_, exec_ldStVx x s, rfl, rfl, rfl, soundActive_iff _⟩⟩

/-! ### The wait for a key (R154, R218) -/

/-- LD Vx, K is a moment of the wait (R154). -/
theorem exec_ldVxK (x : RegIdx) (s : State) : exec (.ldVxK x) s = .next (keyWaitMoment x s) := rfl

section
variable {s : State} {x : RegIdx} {c : Byte} {h : HostSide}

/-- The answered moment writes the code and goes on, out of the wait. -/
theorem keyWaitMoment_completes (ans : s.host.keyWait = (some c, h)) :
    (keyWaitMoment x s).waiting = none ∧ (keyWaitMoment x s).getV x = c ∧ RegsExcept x s (keyWaitMoment x s) ∧
      (keyWaitMoment x s).pc = s.pc + 2#16 := by
  rw [keyWaitMoment_answered x ans]
  exact ⟨rfl, getV_setV_same s x c, setV_regsExcept s x c, rfl⟩

/-- A tick that waits reports nothing. -/
theorem tickReport_waiting (hw : s.waiting = some x) : s.tickReport = none := by simp [State.tickReport, hw]

end

/-- Settles O45, by the answered moment. -/
theorem keyWaitWritesTheAnswer : Obligations.KeyWaitWritesTheAnswer := by
  intro x s c h ans
  obtain ⟨-, hx, hother, hpc⟩ := keyWaitMoment_completes (x := x) ans
  refine ⟨_, exec_ldVxK x s, ?_, hpc, hother, hx⟩
  rw [keyWaitMoment_answered x ans]; rfl

/-- Settles O46: a moment takes nothing off the schedule, and what it changes is decided by the answer. -/
theorem keyWaitSuspendsTheCore : Obligations.KeyWaitSuspendsTheCore := by
  refine ⟨fun x s h ans => ?_, fun x s hw => ⟨_, step_waiting hw, ?_, ?_, fun h ans => ?_, fun c h ans => ?_⟩⟩
  · refine ⟨_, exec_ldVxK x s, keyWaitMoment_unanswered x ans, ?_⟩
    rw [keyWaitMoment_unanswered x ans]
    exact tickReport_waiting rfl
  · rw [keyWaitMoment_frame]; exact keyWait_schedule s.host
  · exact (keyWaitMoment_frame x s).trans (by rw [keyWaitMoment_frame])
  · rw [keyWaitMoment_unanswered x ans, ← hw]; rfl
  · exact keyWaitMoment_completes ans

/-! ### Who writes the timers (R18, R214) -/

section
variable {s t : State} {i : Instr}

/-- DT changes only as a write of it by Fx15. -/
theorem exec_dt_changed (h : exec i s = .next t) (hne : t.dt ≠ s.dt) : ∃ x, i = .ldDtVx x ∧ t.dt = s.getV x := by
  by_cases hi : ∃ x, i = .ldDtVx x
  · obtain ⟨x, rfl⟩ := hi
    cases h
    exact ⟨x, rfl, rfl⟩
  · exact absurd ((exec_frame h).dt fun x e => hi ⟨x, e⟩) hne

/-- ST changes only as a write of it by Fx18. -/
theorem exec_st_changed (h : exec i s = .next t) (hne : t.st ≠ s.st) : ∃ x, i = .ldStVx x ∧ t.st = s.getV x := by
  by_cases hi : ∃ x, i = .ldStVx x
  · obtain ⟨x, rfl⟩ := hi
    cases h
    exact ⟨x, rfl, rfl⟩
  · exact absurd ((exec_frame h).st fun x e => hi ⟨x, e⟩) hne

/-- A CPU tick leaves both timers or runs the instruction it fetched. -/
theorem cpuTick_timers (h : cpuTick s = .next t) : (t.dt = s.dt ∧ t.st = s.st) ∨
    ∃ op i, s.fetchOpcode = some op ∧ decode op = some i ∧ exec i s = .next t := by
  rcases cpuTick_cases s with ⟨-, e⟩ | ⟨-, -, e⟩ | ⟨_, -, -, -, e⟩ | ⟨op, i, -, hfetch, hdec, e⟩
  · rw [e] at h; cases h; exact .inl ⟨rfl, rfl⟩
  · rw [e] at h; cases h; exact .inl ⟨rfl, rfl⟩
  · rw [e] at h; cases h; exact .inl ⟨rfl, rfl⟩
  · exact .inr ⟨op, i, hfetch, hdec, e.symm.trans h⟩

/-- A CPU tick changes DT only by a fetched Fx15. -/
theorem cpuTick_dt_changed (h : cpuTick s = .next t) (hne : t.dt ≠ s.dt) :
    ∃ op x, s.fetchOpcode = some op ∧ decode op = some (.ldDtVx x) := by
  rcases cpuTick_timers h with ⟨hdt, -⟩ | ⟨op, i, hfetch, hdec, hexec⟩
  · exact absurd hdt hne
  · obtain ⟨x, rfl, -⟩ := exec_dt_changed hexec hne
    exact ⟨op, x, hfetch, hdec⟩

/-- A CPU tick changes ST only by a fetched Fx18. -/
theorem cpuTick_st_changed (h : cpuTick s = .next t) (hne : t.st ≠ s.st) :
    ∃ op x, s.fetchOpcode = some op ∧ decode op = some (.ldStVx x) := by
  rcases cpuTick_timers h with ⟨-, hst⟩ | ⟨op, i, hfetch, hdec, hexec⟩
  · exact absurd hst hne
  · obtain ⟨x, rfl, -⟩ := exec_st_changed hexec hne
    exact ⟨op, x, hfetch, hdec⟩

/-- A load and a display read leave both timers. -/
theorem perform_timers {r : Transaction} (htimer : r ≠ .timerTick) (hcpu : r ≠ .cpuTick) (hreset : r ≠ .reset)
    (h : perform r s = .next t) : t.dt = s.dt ∧ t.st = s.st := by
  cases r with
  | cpuTick => exact absurd rfl hcpu
  | timerTick => exact absurd rfl htimer
  | reset => exact absurd rfl hreset
  | read => cases h; exact ⟨rfl, rfl⟩
  | load base program font =>
    obtain ⟨-, rfl⟩ := perform_load_inv h
    exact ⟨rfl, rfl⟩
  | readPx x y =>
    cases perform_readPx_inv h
    exact ⟨rfl, rfl⟩

end

/-- Settles O47, action by action. -/
theorem timerTickDecrementsWithFloor : Obligations.TimerTickDecrementsWithFloor := by
  refine ⟨fun s => ⟨_, rfl, rfl, countDown_toNat s.dt, countDown_toNat s.st⟩,
    fun _ _ _ h => ⟨exec_dt_changed h, exec_st_changed h⟩,
    fun _ _ h => ⟨cpuTick_dt_changed h, cpuTick_st_changed h⟩, fun s t h => ?_,
    fun _ _ _ => perform_timers, fun x s => ⟨keyWaitMoment_dt x s, keyWaitMoment_st x s⟩⟩
  cases h
  exact ⟨rfl, rfl⟩

end Sys2Proof.Machine
end

section
/-! PROOFS. The index register, the stores and the block load (spec 46_index_memory.md R161 to R166, 20_memory.md
R50). -/

namespace Sys2Proof.Machine

/-! ### The index sums (R161, R163) -/

/-- ADD I writes the 12-bit sum (R161). -/
theorem exec_addI (x : RegIdx) (s : State) : exec (.addI x) s = writeIndex (s.indexSum (s.getV x)) s := rfl

/-- LD HF writes the high-resolution glyph address (R163). -/
theorem exec_ldHf (x : RegIdx) (s : State) : exec (.ldHf x) s = writeIndex (hiGlyphAddr (s.getV x)) s := rfl

/-- The sum with `I` wraps modulo 4096 (R161). -/
theorem indexSum_toNat (s : State) (b : Byte) : (s.indexSum b).toNat = (s.i.toNat + b.toNat) % 4096 := by
  rw [State.indexSum, BitVec.toNat_add, BitVec.toNat_setWidth_of_le (by decide)]

/-- The high-resolution glyph address is never reduced: `10 * 255 + 40` is below 4096 (R163). -/
theorem hiGlyphAddr_toNat (b : Byte) : (hiGlyphAddr b).toNat = 10 * b.toNat + 40 := by
  have hfits : 10 * b.toNat + 40 < 2 ^ 12 := by omega
  exact (BitVec.toNat_ofNat _ _).trans (Nat.mod_eq_of_lt hfits)

/-- Settles O49: two index writes, and the frame of the instructions for every other. -/
theorem indexSumHighGlyphAndNoOtherWriter : Obligations.IndexSumHighGlyphAndNoOtherWriter := by
  refine ⟨fun x s => ?_, fun x s => ?_, fun i s t hI hAdd hF hHf h => (exec_frame h).index hI hAdd hF hHf⟩
  · rw [exec_addI]
    obtain ⟨t, hnext, hframe, hpc, hi⟩ := writeIndex_writes_only (s.indexSum (s.getV x)) s
    exact ⟨t, hnext, hframe, hpc, by rw [hi, indexSum_toNat]⟩
  · rw [exec_ldHf]
    obtain ⟨t, hnext, hframe, hpc, hi⟩ := writeIndex_writes_only (hiGlyphAddr (s.getV x)) s
    exact ⟨t, hnext, hframe, hpc, by rw [hi, hiGlyphAddr_toNat]⟩

/-! ### What a store leaves at an address (R46, R164, R165) -/

section
variable {s : State} {a n : Nat} {f g : Nat → Byte}

theorem overlaid_inside (hlo : s.i.toNat ≤ a) (hhi : a < s.i.toNat + n) : s.overlaid n f a = f (a - s.i.toNat) :=
  if_pos ⟨hlo, hhi⟩

theorem overlaid_outside (h : a < s.i.toNat ∨ s.i.toNat + n ≤ a) : s.overlaid n f a = Memory.read s.mem a :=
  if_neg (by omega)

/-- The byte at `I + k`. -/
theorem overlaid_ea {k : Nat} (hk : k < n) : s.overlaid n f (s.ea k) = f k := by
  rw [overlaid_inside (by rw [ea_eq]; omega) (by rw [ea_eq]; omega), ea_eq, Nat.add_sub_cancel_left]

/-- Only the first `n` bytes count. -/
theorem overlaid_congr (h : ∀ k < n, f k = g k) (a : Nat) : s.overlaid n f a = s.overlaid n g a := by
  unfold State.overlaid
  split
  · exact h _ (by omega)
  · rfl

/-- A store in range is what `overlaid` says. -/
theorem read_store {bytes : List Byte} (hwf : Memory.wf s.mem = true) (hin : s.i.toNat + bytes.length ≤ 4096)
    (a : Nat) : Memory.read (Memory.writeList s.mem s.i.toNat bytes) a =
      s.overlaid bytes.length (fun k => bytes.getD k 0#8) a := Memory.read_writeList hwf hin a

end

/-- A memory write and an advanced PC are the only changes of a store. -/
theorem store_onlyMemPc (s : State) (m : Memory) : OnlyMemPc s { s.advance with mem := m } := rfl

section
variable {s : State} {x : RegIdx}

/-- The state after a BCD store in range (R164). -/
theorem exec_ldB_ok (h : s.ea 2 ≤ 0xFFF) : exec (.ldB x) s =
    .next { s.advance with mem := Memory.writeList s.mem s.i.toNat (bcdDigits (s.getV x)) } :=
  storeAtIndex_ok _ (by rw [ea_eq] at h; rw [bcdDigits_length]; omega)

/-- The state after a block store in range (R165). -/
theorem exec_stBlock_ok (h : s.ea x.toNat ≤ 0xFFF) : exec (.stBlock x) s =
    .next { s.advance with mem := Memory.writeList s.mem s.i.toNat (s.regBlock x) } :=
  storeAtIndex_ok _ (by rw [ea_eq] at h; rw [regBlock_length]; omega)

/-- The three digits, by position. -/
theorem bcdDigits_getD (b : Byte) : ∀ k < 3, (bcdDigits b).getD k 0#8 = BitVec.ofNat 8 (decimalDigit b.toNat k)
  | 0, _ => rfl
  | 1, _ => rfl
  | 2, _ => rfl

/-- A decimal digit of a byte fits a byte. -/
theorem decimalDigit_toNat (b : Byte) (k : Nat) :
    (BitVec.ofNat 8 (decimalDigit b.toNat k)).toNat = decimalDigit b.toNat k := by
  have hfits : decimalDigit b.toNat k < 2 ^ 8 := by
    unfold decimalDigit
    split <;> omega
  exact (BitVec.toNat_ofNat _ _).trans (Nat.mod_eq_of_lt hfits)

/-- The registers of a block, by number. -/
theorem regBlock_getD (s : State) (x : RegIdx) :
    ∀ k < x.toNat + 1, (s.regBlock x).getD k 0#8 = s.getV (BitVec.ofNat 4 k) := by
  intro k hk
  rw [List.getD_eq_getElem _ _ (by rw [regBlock_length]; exact hk)]
  simp [State.regBlock]

/-- What memory reads after a BCD store (R164). -/
theorem read_bcd (hwf : Memory.wf s.mem = true) (h : s.ea 2 ≤ 0xFFF) (a : Nat) :
    Memory.read (Memory.writeList s.mem s.i.toNat (bcdDigits (s.getV x))) a =
      s.overlaid 3 (fun k => BitVec.ofNat 8 (decimalDigit (s.getV x).toNat k)) a := by
  rw [ea_eq] at h
  rw [read_store hwf (by rw [bcdDigits_length]; omega), bcdDigits_length]
  exact overlaid_congr (bcdDigits_getD _) a

/-- What memory reads after a block store (R165). -/
theorem read_regBlock (hwf : Memory.wf s.mem = true) (h : s.ea x.toNat ≤ 0xFFF) (a : Nat) :
    Memory.read (Memory.writeList s.mem s.i.toNat (s.regBlock x)) a =
      s.overlaid (x.toNat + 1) (fun k => s.getV (BitVec.ofNat 4 k)) a := by
  rw [ea_eq] at h
  rw [read_store hwf (by rw [regBlock_length]; omega), regBlock_length]
  exact overlaid_congr (regBlock_getD s x) a

/-- A block store leaves each register of the block at its place. -/
theorem read_regBlock_ea (hwf : Memory.wf s.mem = true) (h : s.ea x.toNat ≤ 0xFFF) {r : RegIdx}
    (hr : r.toNat ≤ x.toNat) :
    Memory.read (Memory.writeList s.mem s.i.toNat (s.regBlock x)) (s.ea r.toNat) = s.getV r := by
  rw [read_regBlock hwf h, overlaid_ea (by omega), BitVec.ofNat_toNat, BitVec.setWidth_eq]

end

/-- Settles O50: the three digits where the store lies, the old bytes elsewhere. -/
theorem bcdStoresThreeDigits : Obligations.BcdStoresThreeDigits := by
  refine ⟨fun x s hwf h => ?_, fun x s h => ⟨_, exec_ldB_fault h, raiseFault_faultedFrom ..⟩⟩
  have hread := read_bcd (x := x) hwf h
  have hdigit (k : Nat) (hk : k < 3) :
      (Memory.read (Memory.writeList s.mem s.i.toNat (bcdDigits (s.getV x))) (s.ea k)).toNat =
        decimalDigit (s.getV x).toNat k := by
    rw [hread, overlaid_ea hk, decimalDigit_toNat]
  refine ⟨_, exec_ldB_ok h, store_onlyMemPc s _, rfl, hdigit 0 (by decide), hdigit 1 (by decide), hdigit 2 (by decide),
    fun a ha => ?_⟩
  simp only [ea_eq] at ha
  exact (hread a).trans (overlaid_outside (by omega))

/-- Settles O51: the registers where the store lies, the old bytes elsewhere. -/
theorem blockStoreWritesRegistersUpToVx : Obligations.BlockStoreWritesRegistersUpToVx := by
  refine ⟨fun x s hwf h => ?_, fun x s h => ⟨_, exec_stBlock_fault h, raiseFault_faultedFrom ..⟩⟩
  refine ⟨_, exec_stBlock_ok h, store_onlyMemPc s _, rfl, fun r hr => read_regBlock_ea hwf h hr, fun a ha => ?_⟩
  simp only [ea_eq] at ha
  exact (read_regBlock hwf h a).trans (overlaid_outside (by omega))

/-! ### The block load (R166) -/

section
variable {s : State} {x : RegIdx}

/-- The state after a block load in range. -/
theorem exec_ldBlock_ok (h : s.ea x.toNat ≤ 0xFFF) : exec (.ldBlock x) s = .next (s.loadBlock x).advance :=
  execLdBlock_ok (by rw [ea_eq] at h; omega)

/-- A block load that reaches above 0xFFF faults (R205). -/
theorem exec_ldBlock_fault (h : 0xFFF < s.ea x.toNat) :
    exec (.ldBlock x) s = .next (raiseFault .addressFault (encode (.ldBlock x)) s) :=
  execLdBlock_fault h

/-- The registers up to Vx come from memory. -/
theorem getV_loadBlock_le {r : RegIdx} (h : r.toNat ≤ x.toNat) :
    (s.loadBlock x).getV r = Memory.read s.mem (s.ea r.toNat) := by
  rw [getV_loadBlock, if_pos h, ea_eq]

/-- The registers above Vx keep what they hold. -/
theorem getV_loadBlock_gt {r : RegIdx} (h : x.toNat < r.toNat) : (s.loadBlock x).getV r = s.getV r := by
  rw [getV_loadBlock, if_neg (by omega)]

end

/-- Settles O52, register by register. -/
theorem blockLoadReadsRegistersUpToVx : Obligations.BlockLoadReadsRegistersUpToVx :=
  ⟨fun _ _ h => ⟨_, exec_ldBlock_ok h, rfl, rfl, fun _ hr => getV_loadBlock_le hr, fun _ hr => getV_loadBlock_gt hr⟩,
    fun _ _ h => ⟨_, exec_ldBlock_fault h, raiseFault_faultedFrom ..⟩⟩

/-- Settles O53: the load reads where the store wrote. -/
theorem blockStoreThenLoadRoundTrips : Obligations.BlockStoreThenLoadRoundTrips := by
  intro x s hwf h
  refine ⟨_, exec_stBlock_ok h, fun t' hmem hi => ?_⟩
  have hea (k : Nat) : t'.ea k = s.ea k := by rw [ea_eq, ea_eq, hi]; rfl
  refine ⟨_, exec_ldBlock_ok (by rw [hea]; exact h), fun r hr => ?_⟩
  rw [advance_getV, getV_loadBlock_le hr, hmem, hea]
  exact read_regBlock_ea hwf h hr

/-! ### Fetching after a store (R50) -/

/-- A fetch reads the two bytes at PC of whatever memory reads as. -/
theorem fetchOpcode_of_read {u : State} {byte : Nat → Byte} (hpc : u.pc.toNat ≤ 0xFFE)
    (hread : ∀ a, Memory.read u.mem a = byte a) : u.fetchOpcode = some (opcodeOver byte u.pc.toNat) := by
  rw [fetchOpcode_inRange hpc, hread, hread, opcodeOver]

/-- Settles O54: memory after the store reads as the overlay, and a fetch reads memory. -/
theorem fetchSeesEveryStore : Obligations.FetchSeesEveryStore := by
  refine ⟨fun x s hwf h => ⟨_, exec_stBlock_ok h, fun u hmem hpc => ?_⟩,
    fun x s hwf h => ⟨_, exec_ldB_ok h, fun u hmem hpc => ?_⟩⟩
  · exact fetchOpcode_of_read hpc fun a => by rw [hmem]; exact read_regBlock hwf h a
  · exact fetchOpcode_of_read hpc fun a => by rw [hmem]; exact read_bcd hwf h a

end Sys2Proof.Machine
end

section
/-! PROOFS. The host's transactions: load, reset and the display reads (spec 70_reset_and_hazards.md R230 to R232,
40_display_engine.md R87, R88). -/

namespace Sys2Proof.Machine

/-! ### Load (R231, R232) -/

/-- An accepted load (R231). -/
theorem perform_load {base : Nat} {program : List Byte} (font : Option (Vector Byte 240)) (s : State)
    (hbase : 240 ≤ base) (hfits : base + program.length ≤ 4096) :
    perform (.load base program font) s = .next (loadProgram base program font s) :=
  if_pos (loadAccepted_iff.mpr ⟨hbase, hfits⟩)

/-- A load over the font or past the end of memory is refused (R232). -/
theorem perform_load_refused {base : Nat} {program : List Byte} (font : Option (Vector Byte 240)) (s : State)
    (h : base < 240 ∨ 4096 < base + program.length) : perform (.load base program font) s = .refused .loadRefused :=
  if_neg fun hacc => by
    obtain ⟨hbase, hfits⟩ := loadAccepted_iff.mp hacc
    omega

/-- The font a load copies is the host's or the default one. -/
theorem fontOf_eq (font : Option (Vector Byte 240)) : fontOf font = (font.getD Config.defaultFont).toList := by
  cases font <;> rfl

section
variable {s : State} {base : Nat} {program : List Byte} (font : Option (Vector Byte 240))

/-- What memory reads after an accepted load: the program where it lies, the font below 240, else the old bytes. -/
theorem read_loadProgram (hwf : Memory.wf s.mem = true) (hfits : base + program.length ≤ 4096)
    (a : Nat) : Memory.read (loadProgram base program font s).mem a =
      if base ≤ a ∧ a < base + program.length then program.getD (a - base) 0#8
      else if a < 240 then (font.getD Config.defaultFont).toList.getD a 0#8 else Memory.read s.mem a := by
  have hfontFits : 0 + (fontOf font).length ≤ Config.memSize := by rw [fontOf_length]; decide
  have hfont := Memory.writeList_wf (fontOf font) hwf hfontFits
  rw [loadProgram, Memory.read_writeList hfont hfits, Memory.read_writeList hwf hfontFits, fontOf_length, ← fontOf_eq]
  simp only [Nat.zero_le, true_and, Nat.zero_add, Nat.sub_zero]

end

/-- Settles O55: the program and the font lie apart, so each reads back. -/
theorem loadCopiesFontAndProgram : Obligations.LoadCopiesFontAndProgram := by
  intro s base program font hw hload hwf hbase hfits
  have hstep : step s = .next (loadProgram base program font s.taken) := by
    rw [step_free hw, hload]
    exact perform_load font _ hbase hfits
  have hread := read_loadProgram (s := s.taken) font hwf hfits
  refine ⟨_, hstep, rfl, ?_, fun k hk => ?_, fun k hk => ?_, fun a ha hout => ?_⟩
  · rw [loadProgram, BitVec.toNat_ofNat]; omega
  · rw [hread, if_neg (by omega), if_pos hk]
  · rw [hread, if_pos (by omega), Nat.add_sub_cancel_left]
  · rw [hread, if_neg (by omega), if_neg (by omega)]; rfl

/-- Settles O56: such a load is not accepted. -/
theorem badLoadIsRefused : Obligations.BadLoadIsRefused := by
  intro s base program font hw hload hbad
  rw [step_free hw, hload]
  exact perform_load_refused font _ hbad

/-! ### Reset (R25, R230) -/

/-- Reset memory reads 0, so a fetch at `PC` = 0 reads the word 0 (R230). -/
theorem reset_fetchOpcode (h : HostSide) : ({ State.reset with host := h } : State).fetchOpcode = some 0#16 := by
  have hword : opcodeOfBytes 0#8 0#8 = 0#16 := by decide
  rw [← hword]
  exact fetchOpcode_inRange (s := { State.reset with host := h }) (Nat.zero_le 0xFFE)

/-- The first CPU tick after reset raises DecodeFault, whatever the host lists. -/
theorem cpuTick_reset (h : HostSide) : cpuTick { State.reset with host := h } =
    .next (raiseFault .decodeFault 0#16 { State.reset with host := h }) :=
  cpuTick_reserved rfl (reset_fetchOpcode h) rfl

/-- Settles O57, field by field of the reset state. -/
theorem powerOnResetSetsEveryPiece : Obligations.PowerOnResetSetsEveryPiece := by
  intro s hw hreset
  have hstep : step s = .next (powerOnReset s.taken) := by rw [step_free hw, hreset]; rfl
  have hregs (r : RegIdx) : (powerOnReset s.taken).getV r = 0#8 := Vector.getElem_replicate ..
  have hslots (k : Nat) : (powerOnReset s.taken).slot k = 0#12 := Vector.getElem_replicate ..
  have hrows (r : Nat) : (powerOnReset s.taken).disp.row r = 0#128 := Vector.getElem_replicate ..
  refine ⟨_, hstep, hregs, rfl, rfl, rfl, hslots, rfl, rfl, fun _ => rfl, hrows, rfl, rfl, rfl, rfl, rfl, rfl, rfl,
    fun htick => ?_⟩
  exact ⟨_, (step_ticksNext ⟨rfl, htick⟩).trans (cpuTick_reset _), raiseFault_faultedFrom .., rfl⟩

/-! ### The display reads (R87, R88) -/

/-- A display read clears DIRTY and changes nothing else. -/
theorem markDisplayRead_eq (s : State) :
    markDisplayRead s = { s with disp := { s.disp with dirty := false } } := rfl

/-- A pixel in range is a bit of its row (R80, R88). -/
theorem displayPixel_inRange (s : State) {x y : Nat} (hx : x < 128) (hy : y < 64) :
    s.displayPixel x y = some ((s.disp.row y).getLsbD (127 - x)) := by
  simp only [State.displayPixel, hy, dif_pos, hx, if_true, Display.row, Nat.mod_eq_of_lt, pixel]

/-- A pixel out of range has no answer (R88). -/
theorem displayPixel_outOfRange (s : State) {x y : Nat} (h : 128 ≤ x ∨ 64 ≤ y) : s.displayPixel x y = none := by
  unfold State.displayPixel
  split_ifs
  · omega
  · rfl
  · rfl

/-- Settles O58: the rows are returned as they are. -/
theorem readReturnsTheBufferAndClearsDirty : Obligations.ReadReturnsTheBufferAndClearsDirty :=
  fun s => ⟨congrArg Host.Outcome.next (markDisplayRead_eq s), fun _ _ => rfl⟩

/-- Settles O59, by the coordinates being in range or not. -/
theorem pixelReadClearsDirtyOrIsRefused : Obligations.PixelReadClearsDirtyOrIsRefused :=
  fun s _ _ => ⟨fun hx hy => ⟨perform_readPx s hx hy, displayPixel_inRange s hx hy⟩,
    fun hout => ⟨perform_readPx_refused s hout, displayPixel_outOfRange s hout⟩⟩

end Sys2Proof.Machine
end

section
/-! PROOFS. The draw: a sequence of `write` calls that cover no pixel twice, and that a sprite's calls are such a
sequence (spec 44_draw.md R140, 40_display_engine.md R82, R83). -/

namespace Sys2Proof.Machine

/-- Settles O39: the range check stands before the draw, and a faulted core keeps PC and I. -/
theorem drawPastMemoryFaults : Obligations.DrawPastMemoryFaults := by
  intro x y n s len hlen hpos hout
  rw [← spriteLen_eq] at hlen
  exact ⟨_, execDrw_fault (by omega), raiseFault_faultedFrom .., faultInfo_execute _⟩

/-! ### Sequences of `write` calls -/

/-- Whether one `write` call flips a pixel (R82). -/
def Display.coversCall (d : Display) (call : WriteCall) (c : Fin 128) (r : Fin 64) : Bool :=
  d.covers call.1 call.2.1 call.2.2 c r

/-- Whether some call of a sequence flips a pixel. -/
def Display.coversAny (d : Display) (calls : List WriteCall) (c : Fin 128) (r : Fin 64) : Bool :=
  calls.any fun call => d.coversCall call c r

/-- No pixel is flipped by two calls of a sequence. -/
def Display.Apart (d : Display) (calls : List WriteCall) : Prop :=
  calls.Pairwise fun p q => ∀ c r, d.coversCall p c r = true → d.coversCall q c r = false

section
variable {d : Display} {calls : List WriteCall} {b : Byte} {x y : Nat}

/-- A pixel that a later call flips is one the first call leaves. -/
theorem Display.Apart.first_leaves (h : d.Apart ((b, x, y) :: calls)) {c : Fin 128} {r : Fin 64}
    (hlater : d.coversAny calls c r = true) : d.covers b x y c r = false := by
  obtain ⟨q, hq, hcov⟩ := List.any_eq_true.mp hlater
  by_contra hfirst
  have hno := List.rel_of_pairwise_cons h hq c r (Bool.eq_true_of_not_eq_false hfirst)
  rw [hno] at hcov
  cases hcov

/-- Calls that cover no pixel twice flip each covered pixel once (R82). -/
theorem dot_writeAll (h : d.Apart calls) (c : Fin 128) (r : Fin 64) :
    (d.writeAll calls).2.dot c r = (d.dot c r ^^ d.coversAny calls c r) := by
  induction calls generalizing d with
  | nil => exact (Bool.xor_false _).symm
  | cons call calls ih =>
    obtain ⟨b, x, y⟩ := call
    have hrest : (d.writeByte b x y).2.Apart calls := List.Pairwise.of_cons h
    have hsplit : (d.covers b x y c r ^^ d.coversAny calls c r) = d.coversAny ((b, x, y) :: calls) c r := by
      change _ = (d.covers b x y c r || d.coversAny calls c r)
      cases hlater : d.coversAny calls c r with
      | true => rw [h.first_leaves hlater]; rfl
      | false => rw [Bool.xor_false, Bool.or_false]
    calc (d.writeAll ((b, x, y) :: calls)).2.dot c r
        = ((d.writeByte b x y).2.dot c r ^^ d.coversAny calls c r) := ih hrest
      _ = (d.dot c r ^^ d.coversAny ((b, x, y) :: calls) c r) := by rw [dot_writeByte, Bool.xor_assoc, hsplit]

/-- Such a sequence reports erasure exactly when it covers a set pixel (R83, R140). -/
theorem writeAll_reports_iff (h : d.Apart calls) :
    (d.writeAll calls).1 = true ↔ ∃ c r, d.dot c r = true ∧ d.coversAny calls c r = true := by
  induction calls generalizing d with
  | nil => simp [Display.writeAll, Display.coversAny]
  | cons call calls ih =>
    obtain ⟨b, x, y⟩ := call
    have hrest : (d.writeByte b x y).2.Apart calls := List.Pairwise.of_cons h
    have hlater (c : Fin 128) (r : Fin 64) : ((d.writeByte b x y).2.dot c r = true ∧ d.coversAny calls c r = true) ↔
        (d.dot c r = true ∧ d.coversAny calls c r = true) :=
      and_congr_left fun hcov => by rw [dot_writeByte, h.first_leaves hcov, Bool.xor_false]
    calc (d.writeAll ((b, x, y) :: calls)).1 = true
        ↔ (d.writeByte b x y).1 = true ∨ ((d.writeByte b x y).2.writeAll calls).1 = true := Bool.or_eq_true_iff ..
      _ ↔ (∃ c r, d.dot c r = true ∧ d.covers b x y c r = true) ∨
            ∃ c r, d.dot c r = true ∧ d.coversAny calls c r = true :=
          or_congr (writeByte_reports_iff ..) ((ih hrest).trans (exists_congr fun c => exists_congr (hlater c)))
      _ ↔ ∃ c r, d.dot c r = true ∧ d.coversAny ((b, x, y) :: calls) c r = true := by
          simp only [← exists_or, ← and_or_left, ← Bool.or_eq_true]; rfl

/-- Such a sequence reports erasure exactly when a set pixel ends unset. -/
theorem writeAll_reports_iff_cleared (h : d.Apart calls) :
    (d.writeAll calls).1 = true ↔ ∃ c r, d.dot c r = true ∧ (d.writeAll calls).2.dot c r = false := by
  rw [writeAll_reports_iff h]
  refine exists_congr fun c => exists_congr fun r => and_congr_right fun hset => ?_
  simp [dot_writeAll h, hset]

end

/-! ### Which byte of a sprite a pixel shows (R140) -/

/-- How many columns of the mode's own coordinates a buffer column lies right of the sprite's corner, round the edge. -/
def spriteDx (m : Mode) (px c : Nat) : Nat :=
  match m with
  | .high => (c + 128 - px % 128) % 128
  | .low => (c / 2 + 64 - px % 64) % 64

/-- How many rows of the mode's own coordinates a buffer row lies below the sprite's corner, round the edge. -/
def spriteDy (m : Mode) (py r : Nat) : Nat :=
  match m with
  | .high => (r + 64 - py % 64) % 64
  | .low => (r / 2 + 32 - py % 32) % 32

/-- The number of the sprite byte that shows at an offset: one byte a row, or two in a 16x16 sprite. -/
def spriteByteAt (big : Bool) (dx dy : Nat) : Nat := if big then 2 * dy + dx / 8 else dy

/-- The width of a sprite in pixels. -/
def spriteWidth (big : Bool) : Nat := if big then 16 else 8

/-- The `write` call of sprite byte `k`. -/
def spriteCall (big : Bool) (px py : Nat) (b : Byte) (k : Nat) : WriteCall :=
  if big then (b, px + 8 * (k % 2), py + k / 2) else (b, px, py + k)

section
variable {d : Display} {big : Bool} {px py k : Nat} {c : Fin 128} {r : Fin 64} {bytes : List Byte}

/-- Two ways to name a set bit at a place: the places agree, and there the bit numbers do. -/
theorem and_bit_congr {row col idx wid : Prop} {b : Byte} {i j : Nat} (hplace : row ∧ col ↔ idx ∧ wid)
    (hbit : row → col → i = j) :
    (row ∧ col ∧ b.getLsbD i = true) ↔ (idx ∧ wid ∧ b.getLsbD j = true) := by
  rw [← and_assoc, ← and_assoc, ← hplace]
  exact and_congr_right fun h => by rw [hbit h.1 h.2]

/-- The call of sprite byte `k` flips a pixel exactly when `k` is the number of the byte that shows there, the pixel
lies within the sprite's width, and its bit is set. -/
theorem coversCall_spriteCall_iff (hbig : big = true → d.mode = .high) (b : Byte) (hk : k < 32) :
    d.coversCall (spriteCall big px py b k) c r = true ↔
      k = spriteByteAt big (spriteDx d.mode px c) (spriteDy d.mode py r) ∧ spriteDx d.mode px c < spriteWidth big ∧
        b.getLsbD (7 - spriteDx d.mode px c % 8) = true := by
  have hc := c.isLt
  have hr := r.isLt
  simp only [Display.coversCall, Display.covers, Bool.and_eq_true, decide_eq_true_eq, mem_spriteRows]
  cases hm : d.mode with
  | high =>
    rw [pixel_spriteMask_high _ _ _ hc, Bool.and_eq_true, decide_eq_true_eq]
    cases big with
    | true =>
      simp only [spriteCall, spriteByteAt, spriteWidth, spriteDx, spriteDy, if_true]
      exact and_bit_congr (by omega) (by omega)
    | false =>
      simp only [spriteCall, spriteByteAt, spriteWidth, spriteDx, spriteDy, Bool.false_eq_true, if_false]
      exact and_bit_congr (by omega) (by omega)
  | low =>
    have hsmall : big = false := Bool.eq_false_iff.mpr fun h => by rw [hbig h] at hm; cases hm
    subst hsmall
    rw [pixel_spriteMask_low _ _ _ hc, Bool.and_eq_true, decide_eq_true_eq]
    simp only [spriteCall, spriteByteAt, spriteWidth, spriteDx, spriteDy, Bool.false_eq_true, if_false]
    exact and_bit_congr (by omega) (by omega)

/-- The calls of a sprite are those of its bytes by number. -/
theorem mem_spriteCalls {call : WriteCall} : call ∈ spriteCalls big px py bytes ↔
    ∃ (k : Nat) (h : k < bytes.length), spriteCall big px py bytes[k] k = call := by
  simp only [spriteCalls, List.mem_map, Prod.exists, List.mem_zipIdx_iff_getElem?, List.getElem?_eq_some_iff]
  constructor
  · rintro ⟨b, k, ⟨hk, hb⟩, hcall⟩
    exact ⟨k, hk, by rw [hb]; exact hcall⟩
  · rintro ⟨k, hk, rfl⟩
    exact ⟨_, k, ⟨hk, rfl⟩, rfl⟩

theorem spriteCalls_getElem {k : Nat} (h : k < (spriteCalls big px py bytes).length) :
    (spriteCalls big px py bytes)[k] =
      spriteCall big px py (bytes[k]'(by simpa [spriteCalls] using h)) k := by
  simp [spriteCalls, spriteCall]

/-- A pixel shows one byte of the sprite, so no two of its calls flip the same pixel. -/
theorem spriteCalls_apart (hbig : big = true → d.mode = .high) (hlen : bytes.length ≤ 32) :
    d.Apart (spriteCalls big px py bytes) := by
  have hcalls : (spriteCalls big px py bytes).length = bytes.length := by simp [spriteCalls]
  refine List.pairwise_iff_getElem.mpr fun i j hi hj hij c r hcov => ?_
  rw [spriteCalls_getElem, coversCall_spriteCall_iff hbig _ (by omega)] at hcov
  rw [spriteCalls_getElem, ← Bool.not_eq_true, coversCall_spriteCall_iff hbig _ (by omega)]
  omega

/-- What `spriteCovers` says, by the number of the byte that shows at the pixel (R140). -/
theorem spriteCovers_iff {m : Mode} (hbig : big = true → m = .high ∧ bytes.length = 32) :
    spriteCovers m big px py bytes c r = true ↔
      spriteByteAt big (spriteDx m px c) (spriteDy m py r) < bytes.length ∧ spriteDx m px c < spriteWidth big ∧
        (bytes.getD (spriteByteAt big (spriteDx m px c) (spriteDy m py r)) 0#8).getLsbD
          (7 - spriteDx m px c % 8) = true := by
  cases m with
  | high =>
    cases big with
    | true =>
      obtain ⟨-, hlen⟩ := hbig rfl
      simp only [spriteCovers, spriteByteAt, spriteWidth, spriteDx, spriteDy, if_true, Bool.and_eq_true,
        decide_eq_true_eq, and_assoc]
      rw [hlen, ← and_assoc, ← and_assoc]
      exact and_congr_left fun _ => by omega
    | false =>
      simp only [spriteCovers, spriteByteAt, spriteWidth, spriteDx, spriteDy, Bool.false_eq_true, if_false,
        Bool.and_eq_true, decide_eq_true_eq, and_assoc]
      exact and_bit_congr and_comm fun hdx _ => by rw [Nat.mod_eq_of_lt hdx]
  | low =>
    have hsmall : big = false := Bool.eq_false_iff.mpr fun h => nomatch (hbig h).1
    subst hsmall
    simp only [spriteCovers, spriteByteAt, spriteWidth, spriteDx, spriteDy, Bool.false_eq_true, if_false,
      Bool.and_eq_true, decide_eq_true_eq, and_assoc]
    exact and_bit_congr and_comm fun hdx _ => by rw [Nat.mod_eq_of_lt hdx]

/-- The calls of a sprite flip the pixels that the sprite covers. -/
theorem coversAny_spriteCalls (hbig : big = true → d.mode = .high ∧ bytes.length = 32) (hlen : bytes.length ≤ 32) :
    d.coversAny (spriteCalls big px py bytes) c r = spriteCovers d.mode big px py bytes c r := by
  rw [Bool.eq_iff_iff, spriteCovers_iff hbig, Display.coversAny, List.any_eq_true]
  constructor
  · rintro ⟨call, hcall, hcov⟩
    obtain ⟨k, hk, rfl⟩ := mem_spriteCalls.mp hcall
    obtain ⟨hidx, hwidth, hbit⟩ := (coversCall_spriteCall_iff (fun h => (hbig h).1) _ (by omega)).mp hcov
    subst hidx
    exact ⟨hk, hwidth, by rw [List.getD_eq_getElem _ _ hk]; exact hbit⟩
  · rintro ⟨hk, hwidth, hbit⟩
    rw [List.getD_eq_getElem _ _ hk] at hbit
    exact ⟨_, mem_spriteCalls.mpr ⟨_, hk, rfl⟩,
      (coversCall_spriteCall_iff (fun h => (hbig h).1) _ (by omega)).mpr ⟨rfl, hwidth, hbit⟩⟩

end

/-! ### The draw (R140) -/

/-- The test of a 16x16 sprite. -/
theorem isBig_iff (m : Mode) (n : BitVec 4) : isBig m n = true ↔ n = 0#4 ∧ m = .high := by
  simp [isBig]

/-- A sprite has at most 32 bytes. -/
theorem spriteLen_le (m : Mode) (n : BitVec 4) : spriteLen m n ≤ 32 := by
  have := n.isLt
  rw [spriteLen]; split <;> omega

section
variable (x y : RegIdx) (n : BitVec 4) (s : State)

/-- The calls of a draw: the sprite at the coordinates in `Vx` and `Vy`, its bytes from `I` up. -/
def State.drawCalls : List WriteCall :=
  spriteCalls (isBig s.disp.mode n) (s.getV x).toNat (s.getV y).toNat
    (Memory.readList s.mem s.i.toNat (spriteLen s.disp.mode n))

/-- A draw is the `write` calls of its sprite. -/
theorem drawn_eq : s.drawn x y n = s.disp.writeAll (s.drawCalls x y n) := rfl

/-- A draw covers no pixel twice. -/
theorem drawCalls_apart : s.disp.Apart (s.drawCalls x y n) :=
  spriteCalls_apart (fun h => ((isBig_iff _ _).mp h).2) (by rw [Memory.readList_length]; exact spriteLen_le _ _)

/-- A draw flips the pixels its sprite covers. -/
theorem drawn_dot (c : Fin 128) (r : Fin 64) : (s.drawn x y n).2.dot c r = (s.disp.dot c r ^^
    spriteCovers s.disp.mode (isBig s.disp.mode n) (s.getV x).toNat (s.getV y).toNat
      (Memory.readList s.mem s.i.toNat (spriteLen s.disp.mode n)) c r) := by
  have hlen := Memory.readList_length s.mem s.i.toNat (spriteLen s.disp.mode n)
  rw [drawn_eq, dot_writeAll (drawCalls_apart x y n s), State.drawCalls,
    coversAny_spriteCalls (fun h => ⟨((isBig_iff _ _).mp h).2, ?_⟩) (by rw [hlen]; exact spriteLen_le _ _)]
  rw [hlen, spriteLen, if_pos h]

/-- A draw reports erasure exactly when a set pixel ends unset (R83). -/
theorem drawn_reports_iff : (s.drawn x y n).1 = true ↔
    ∃ c r, s.disp.dot c r = true ∧ (s.drawn x y n).2.dot c r = false :=
  writeAll_reports_iff_cleared (drawCalls_apart x y n s)

/-- A draw sets DIRTY unless the sprite has no byte. -/
theorem drawn_dirty_iff : (s.drawn x y n).2.dirty = true ↔ s.disp.dirty = true ∨ 0 < spriteLen s.disp.mode n := by
  have hlen : (s.drawCalls x y n).length = spriteLen s.disp.mode n := by simp [State.drawCalls, spriteCalls]
  rw [drawn_eq, writeAll_dirty, Bool.or_eq_true, Bool.not_eq_true', ← hlen, List.length_pos_iff,
    List.isEmpty_eq_false_iff]

end

/-- The flag as a byte is 1 or 0, and 1 exactly when it is set. -/
theorem flagByte_eq_one_iff (f : Bool) : flagByte f = 1#8 ↔ f = true := by
  cases f <;> decide

theorem flagByte_eq (f : Bool) : flagByte f = 1#8 ∨ flagByte f = 0#8 := by
  cases f <;> decide

/-- Settles O38: the sprite's calls cover no pixel twice, so each covered pixel is flipped once. -/
theorem drawXorsTheCoveredPixels : Obligations.DrawXorsTheCoveredPixels := by
  intro x y n s big len hbig hlen hin
  obtain rfl : big = isBig s.disp.mode n := Bool.eq_iff_iff.mpr (hbig.trans (isBig_iff _ _).symm)
  obtain rfl : len = spriteLen s.disp.mode n := hlen
  have hi := s.i.isLt
  have hvf : State.getV { (s.setV vf (flagByte (s.drawn x y n).1)).advance with disp := (s.drawn x y n).2 } vf =
      flagByte (s.drawn x y n).1 := getV_setV_same s vf _
  refine ⟨_, execDrw_ok (by omega), rfl, rfl, setV_regsExcept s vf _, writeAll_mode _ _, drawn_dirty_iff x y n s,
    drawn_dot x y n s, ?_, ?_⟩
  · rw [hvf]
    exact flagByte_eq _
  · rw [hvf, flagByte_eq_one_iff]
    exact drawn_reports_iff x y n s

end Sys2Proof.Machine
end
